-- ==== Sys2Proof/Syntax.lean ====
section
/-! DEFINITION. The commands: one constructor per row of spec/opcode_table.json. A command word carries
no operand (R66), so no constructor has an argument. -/

namespace Sys2Proof

/-- The 38 commands of R64. -/
inductive Instr where
  /-- `ADD.W8`, command word 0x02 (R91). -/
  | addW8
  /-- `NEG.W8`, command word 0x03 (R92). -/
  | negW8
  /-- `SUB.W8`, command word 0x04 (R93). -/
  | subW8
  /-- `MUL.W8`, command word 0x05 (R94). -/
  | mulW8
  /-- `DIV.W8`, command word 0x06 (R95). -/
  | divW8
  /-- `FXENC.W8`, command word 0x07 (R110). -/
  | fxencW8
  /-- `FXDEC.W8`, command word 0x08 (R111). -/
  | fxdecW8
  /-- `FXDIV.W8`, command word 0x09 (R112). -/
  | fxdivW8
  /-- `ADD.W16`, command word 0x12 (R91). -/
  | addW16
  /-- `NEG.W16`, command word 0x13 (R92). -/
  | negW16
  /-- `SUB.W16`, command word 0x14 (R93). -/
  | subW16
  /-- `MUL.W16`, command word 0x15 (R94). -/
  | mulW16
  /-- `DIV.W16`, command word 0x16 (R95). -/
  | divW16
  /-- `FXENC.W16`, command word 0x17 (R110). -/
  | fxencW16
  /-- `FXDEC.W16`, command word 0x18 (R111). -/
  | fxdecW16
  /-- `FXDIV.W16`, command word 0x19 (R112). -/
  | fxdivW16
  /-- `FDEC.F16`, command word 0x1A (R126). -/
  | fdecF16
  /-- `FASM.F16`, command word 0x1B (R127). -/
  | fasmF16
  /-- `FADD.F16`, command word 0x1C (R131). -/
  | faddF16
  /-- `FSUB.F16`, command word 0x1D (R132). -/
  | fsubF16
  /-- `FMUL.F16`, command word 0x1E (R133). -/
  | fmulF16
  /-- `FDIV.F16`, command word 0x1F (R134). -/
  | fdivF16
  /-- `CMPMAG.W32`, command word 0x20 (R80). -/
  | cmpmagW32
  /-- `MSB.W32`, command word 0x21 (R81). -/
  | msbW32
  /-- `ADD.W32`, command word 0x22 (R91). -/
  | addW32
  /-- `NEG.W32`, command word 0x23 (R92). -/
  | negW32
  /-- `SUB.W32`, command word 0x24 (R93). -/
  | subW32
  /-- `MUL.W32`, command word 0x25 (R94). -/
  | mulW32
  /-- `DIV.W32`, command word 0x26 (R95). -/
  | divW32
  /-- `FXENC.W32`, command word 0x27 (R110). -/
  | fxencW32
  /-- `FXDEC.W32`, command word 0x28 (R111). -/
  | fxdecW32
  /-- `FXDIV.W32`, command word 0x29 (R112). -/
  | fxdivW32
  /-- `FDEC.F32`, command word 0x2A (R126). -/
  | fdecF32
  /-- `FASM.F32`, command word 0x2B (R127). -/
  | fasmF32
  /-- `FADD.F32`, command word 0x2C (R131). -/
  | faddF32
  /-- `FSUB.F32`, command word 0x2D (R132). -/
  | fsubF32
  /-- `FMUL.F32`, command word 0x2E (R133). -/
  | fmulF32
  /-- `FDIV.F32`, command word 0x2F (R134). -/
  | fdivF32
  deriving DecidableEq, Repr

end Sys2Proof
end

