-- ==== Sys2Proof/Word.lean ====
section
/-! DEFINITION. The 32-bit container word and its readings (R6). -/

namespace Sys2Proof

/-- A word: the 32-bit container of every value (R6). -/
abbrev Word := BitVec 32

/-- A byte of the staging buffer, of `CMD`, of `STATUS`. -/
abbrev Byte := BitVec 8

/-- `uns(v)`: the word read as a natural number (R6). -/
abbrev uns (v : Word) : Nat := v.toNat

/-- `sgn(v)`: the word read as a two's-complement integer (R6). -/
abbrev sgn (v : Word) : Int := v.toInt

/-- `word(k)`: the word congruent to `k` modulo `2^32` (R6). -/
abbrev word (k : Int) : Word := BitVec.ofInt 32 k

end Sys2Proof
end

