-- ==== Sys2Proof/Decode.lean ====
section
/-! DEFINITION. The decoder of a command byte (R61 to R65), total and rejecting by name, the encoder, and
the host's entry to the decoder. -/

namespace Sys2Proof

/-- Why a byte is no command word (R65). -/
inductive IllegalWord where
  /-- `c[7:6]` is not `00` (R61). -/
  | zeroFieldSet
  /-- `sel = 3` is reserved (R63). -/
  | selReserved
  /-- The function is not offered at this width (R64). -/
  | widthNotOffered
  deriving DecidableEq, Repr

/-- What a byte decodes to. -/
inductive Decoded where
  | instr (i : Instr)
  | illegal (why : IllegalWord)
  deriving DecidableEq, Repr

/-- `c[3:0]` (R61). -/
def opField (c : Byte) : Nat := (c.extractLsb' 0 4).toNat

/-- `c[5:4]` (R61). -/
def selField (c : Byte) : Nat := (c.extractLsb' 4 2).toNat

/-- `c[7:6]` (R61). -/
def zeroField (c : Byte) : Nat := (c.extractLsb' 6 2).toNat

/-- `sel = 0`: the `.W8` commands (R62, R64). -/
def decodeSel0 (op : Nat) : Decoded :=
  match op with
  | 2 => .instr .addW8
  | 3 => .instr .negW8
  | 4 => .instr .subW8
  | 5 => .instr .mulW8
  | 6 => .instr .divW8
  | 7 => .instr .fxencW8
  | 8 => .instr .fxdecW8
  | 9 => .instr .fxdivW8
  | _ => .illegal .widthNotOffered

/-- `sel = 1`: the `.W16` and `.F16` commands (R62, R64). -/
def decodeSel1 (op : Nat) : Decoded :=
  match op with
  | 2 => .instr .addW16
  | 3 => .instr .negW16
  | 4 => .instr .subW16
  | 5 => .instr .mulW16
  | 6 => .instr .divW16
  | 7 => .instr .fxencW16
  | 8 => .instr .fxdecW16
  | 9 => .instr .fxdivW16
  | 10 => .instr .fdecF16
  | 11 => .instr .fasmF16
  | 12 => .instr .faddF16
  | 13 => .instr .fsubF16
  | 14 => .instr .fmulF16
  | 15 => .instr .fdivF16
  | _ => .illegal .widthNotOffered

/-- `sel = 2`: the `.W32` and `.F32` commands (R62, R64). -/
def decodeSel2 (op : Nat) : Decoded :=
  match op with
  | 0 => .instr .cmpmagW32
  | 1 => .instr .msbW32
  | 2 => .instr .addW32
  | 3 => .instr .negW32
  | 4 => .instr .subW32
  | 5 => .instr .mulW32
  | 6 => .instr .divW32
  | 7 => .instr .fxencW32
  | 8 => .instr .fxdecW32
  | 9 => .instr .fxdivW32
  | 10 => .instr .fdecF32
  | 11 => .instr .fasmF32
  | 12 => .instr .faddF32
  | 13 => .instr .fsubF32
  | 14 => .instr .fmulF32
  | 15 => .instr .fdivF32
  | _ => .illegal .widthNotOffered

/-- Decoding of a command byte, from that byte alone (R61, R63, R67). -/
def decode (c : Byte) : Decoded :=
  if zeroField c ≠ 0 then .illegal .zeroFieldSet
  else
    match selField c with
    | 0 => decodeSel0 (opField c)
    | 1 => decodeSel1 (opField c)
    | 2 => decodeSel2 (opField c)
    | _ => .illegal .selReserved

/-- The command word of a command, as the table of R64 lists it. -/
def encode : Instr → Byte
  | .addW8 => 0x02#8
  | .negW8 => 0x03#8
  | .subW8 => 0x04#8
  | .mulW8 => 0x05#8
  | .divW8 => 0x06#8
  | .fxencW8 => 0x07#8
  | .fxdecW8 => 0x08#8
  | .fxdivW8 => 0x09#8
  | .addW16 => 0x12#8
  | .negW16 => 0x13#8
  | .subW16 => 0x14#8
  | .mulW16 => 0x15#8
  | .divW16 => 0x16#8
  | .fxencW16 => 0x17#8
  | .fxdecW16 => 0x18#8
  | .fxdivW16 => 0x19#8
  | .fdecF16 => 0x1A#8
  | .fasmF16 => 0x1B#8
  | .faddF16 => 0x1C#8
  | .fsubF16 => 0x1D#8
  | .fmulF16 => 0x1E#8
  | .fdivF16 => 0x1F#8
  | .cmpmagW32 => 0x20#8
  | .msbW32 => 0x21#8
  | .addW32 => 0x22#8
  | .negW32 => 0x23#8
  | .subW32 => 0x24#8
  | .mulW32 => 0x25#8
  | .divW32 => 0x26#8
  | .fxencW32 => 0x27#8
  | .fxdecW32 => 0x28#8
  | .fxdivW32 => 0x29#8
  | .fdecF32 => 0x2A#8
  | .fasmF32 => 0x2B#8
  | .faddF32 => 0x2C#8
  | .fsubF32 => 0x2D#8
  | .fmulF32 => 0x2E#8
  | .fdivF32 => 0x2F#8

/-- The command that a table row's bits stand for: a command is exactly one byte (R61, R67). -/
def decodeTableWord (nbits w : Nat) : Option Instr :=
  if nbits = 8 ∧ w < 256 then
    match decode (BitVec.ofNat 8 w) with
    | .instr i => some i
    | .illegal _ => none
  else none

end Sys2Proof
end

