-- ==== Sys2Proof/Config.lean ====
section
/-! DEFINITION. What an implementation of the block fixes, and the free values: the selectable
widths (R5, R63), the float format descriptor (R125), the open rounding parameter (R5, R110) and the
byte an unwritten place of the staging buffer holds (R29, U1). -/

namespace Sys2Proof

/-- The integer and fixed-point word widths a command can select (R5, R63). -/
inductive Width where
  | w8
  | w16
  | w32
  deriving DecidableEq, Repr

/-- The values of the open parameter `FX_ROUND_TIE` (R5, R110): how `toFixedPoint` rounds an exact half. -/
inductive RoundTie where
  | towardPosInf
  | awayFromZero
  | toEven
  deriving DecidableEq, Repr, Inhabited

/-- The format descriptor of a float bit pattern (R125): its fields, and the byte count of the pattern.
`mantissaWidth` only ever counts places of a shift, so it is a natural number. -/
structure FloatFormat where
  bytes : Nat
  signBitMask : BitVec 32
  mantissaWidth : Nat
  mantissaMask : BitVec 32
  implicitBitMask : BitVec 32
  exponentMask : BitVec 32
  exponentBias : BitVec 32
  zeroExponentEncoding : BitVec 32
  infinityExponentEncoding : BitVec 32
  deriving DecidableEq, Repr

/-- The implementation's choice for `FX_ROUND_TIE`. No body: the spec leaves it open (U11, log 5). -/
opaque Config.fxRoundTie : RoundTie

/-- What the byte of `V` at an offset holds after the given number of resets, until something writes
it. No body: the spec gives it no value (R29, U1, log 1). -/
opaque Config.unwrittenByte : Nat → Nat → BitVec 8

end Sys2Proof
end

