-- ==== Sys2Proof/Machine/HostStep.lean ====
section
/-! DEFINITION. The steps the host and the platform take on the block, and the values they return (R22, R45,
R170, R178). -/

namespace Sys2Proof

/-- One step from outside the block. The script of a run is a list of these (R178). -/
inductive HostStep where
  /-- `HostSet(off, n, v)` (R45). -/
  | set (off n v : Nat)
  /-- `HostGet(off, n)` (R45). -/
  | get (off n : Nat)
  /-- `HostCmd(c)`, the write of `CMD` (R45, R60). -/
  | command (c : Byte)
  /-- `HostStatus()` (R45). -/
  | readStatus
  /-- A read of `CMD` (R22). -/
  | readCommand
  /-- A write of `STATUS`, which is read-only to the host (R23, U4). -/
  | writeStatus (v : Byte)
  /-- The platform's reset, a step between commands (R170, R171). -/
  | reset
  deriving DecidableEq, Repr

/-- A value a host step returned (R178). -/
inductive HostReply where
  /-- What `HostGet` returned. -/
  | value (v : Nat)
  /-- What `HostStatus` returned. -/
  | status (v : Byte)
  /-- What a read of `CMD` returned. -/
  | command (v : Byte)
  deriving DecidableEq, Repr

end Sys2Proof
end

