-- ==== Sys2Proof/Machine/State.lean ====
section
/-! DEFINITION. The state of the block (10_state.md), its stops, and its state after reset (R29, R170). -/

namespace Sys2Proof.Machine

/-- The values of `STATUS.COND` (R23, R150): five, because the codes 5 to 7 are never produced (U7). -/
inductive Condition where
  | none
  | divideByZero
  | degenerateDivisor
  | invalidOperand
  | illegalCommand
  deriving DecidableEq, Repr

/-- The slots of the staging buffer (R21). -/
inductive Slot where
  | a
  | b
  | r
  | r2
  | x
  | y
  deriving DecidableEq, Repr

/-- The written bytes of `V`, by offset. An offset that is not listed is an unwritten byte (R29, U1). -/
abbrev Memory := List Host.Cell

/-- The block's state (R20 to R23), and the model's own fields `resets`, `script` and `replies`. -/
structure State where
  /-- `CMD`: the last byte written to it (R22). -/
  cmd : Byte
  /-- `STATUS.COND` (R23); `STATUS` itself is `State.status`. -/
  cond : Condition
  /-- `V`, the staging buffer (R21). -/
  v : Memory
  /-- The model's own: how many resets came before; it indexes the free values of unwritten bytes (log 2). -/
  resets : Nat
  /-- The model's own: the host steps still to be taken, the next one first (R178, log 3). -/
  script : List HostStep
  /-- The model's own: the values returned to the host so far, oldest first (R178, log 4). -/
  replies : List HostReply
  deriving DecidableEq, Repr

/-- A stop on an address that does not exist. -/
inductive Fault where
  /-- Raised by `HostSet` and `HostGet` with `off + n > 32`: "the block has no such bytes" (R45, U3). Safe: the
  run stops where the spec gives the access no meaning (log 6). No command raises it (R46). -/
  | noSuchByte (off n : Nat)
  deriving DecidableEq, Repr

/-- A step the model gives no meaning. -/
inductive Refusal where
  /-- Raised by an arm of `exec` whose command has no meaning yet. Safe. No arm does. -/
  | notModelled (mnemonic : String)
  /-- Raised by `HostSet` and `HostGet` with a width other than 1, 2, 4, 8 (R45, U3). Safe (log 6). -/
  | noSuchWidth (n : Nat)
  /-- Raised by a host write of `STATUS`, which is read-only to the host (R23, U4). Safe (log 7). -/
  | statusReadOnly
  deriving DecidableEq, Repr

/-- The outcome of a command or a host step. -/
abbrev Result := Host.Outcome State Fault Refusal

/-- The block right after reset (R29, R170, R172): `CMD` and `STATUS` zero, no byte of `V` written. The model's
own fields start empty (log 2, log 3, log 4). -/
def State.reset : State :=
  { cmd := 0x00#8, cond := .none, v := [], resets := 0, script := [], replies := [] }

end Sys2Proof.Machine
end

