-- ==== Sys2Proof/Machine/Ops.lean ====
section
/-! DEFINITION. The named operations on the staging buffer (R41), the end of a command with a result (R60) and
the raising of a condition (R157). There is no return from a condition (R158): the next command runs
normally whatever `COND` holds. -/

namespace Sys2Proof.Machine

/-- How many bytes `V` has (R21). -/
def bufferSize : Nat := 32

/-- The canonical form of the written bytes: offsets strictly rising, all inside `V`. An unlisted offset has
no value, so no entry can equal what an unlisted offset reads as (log 18). -/
abbrev Memory.wf (m : Memory) : Prop :=
  m.Pairwise (fun c d => c.1 < d.1) ∧ ∀ c ∈ m, c.1 < bufferSize

/-- What was last written at an offset, if anything was since reset. -/
def Memory.byteAt? (m : Memory) (a : Nat) : Option Byte :=
  match m with
  | [] => none
  | (k, b) :: rest => if k = a then some b else Memory.byteAt? rest a

/-- Write one byte and keep the offsets rising. -/
def Memory.setByte (m : Memory) (a : Nat) (b : Byte) : Memory :=
  match m with
  | [] => [(a, b)]
  | (k, c) :: rest =>
    if a < k then (a, b) :: (k, c) :: rest
    else if a = k then (a, b) :: rest
    else (k, c) :: Memory.setByte rest a b

/-- `MemWrite(off, n, v)`: the low `8n` bits of `v`, little-endian, and no other byte (R41). -/
def Memory.write (m : Memory) (off n v : Nat) : Memory :=
  match n with
  | 0 => m
  | n + 1 => Memory.write (Memory.setByte m off (BitVec.ofNat 8 v)) (off + 1) n (v / 256)

/-- One byte of `V`: what was last written there, or the free value of an unwritten byte (R29, U1, log 1). -/
def State.byteAt (s : State) (a : Nat) : Byte :=
  match Memory.byteAt? s.v a with
  | some b => b
  | none => Config.unwrittenByte s.resets a

/-- `MemRead(off, n)`: the little-endian natural number in `n` bytes (R41). -/
def State.memRead (s : State) (off n : Nat) : Nat :=
  match n with
  | 0 => 0
  | n + 1 => (s.byteAt off).toNat + 256 * s.memRead (off + 1) n

/-- A command that returns a result: its slots are written and `COND` is 0 (R23, R60). -/
def complete (m : Memory) (s : State) : State := { s with v := m, cond := .none }

/-- `raise <Condition>`: `COND` takes the condition, nothing else changes (R10, R157). -/
def raise (c : Condition) (s : State) : State := { s with cond := c }

end Sys2Proof.Machine
end

