-- ==== Sys2Proof/Machine/Operands.lean ====
section
/-! DEFINITION. Operand intake and result delivery at the slots of the staging buffer (R21, R43, R44), the
widths (R63), and the three shifts (R8). -/

namespace Sys2Proof.Machine

/-- The slot map (R21). -/
def Slot.offset : Slot → Nat
  | .a => 0x00
  | .b => 0x04
  | .r => 0x08
  | .r2 => 0x0C
  | .x => 0x10
  | .y => 0x18

/-- The byte count `n` a width selects (R63). -/
def widthBytes : Width → Nat
  | .w8 => 1
  | .w16 => 2
  | .w32 => 4

/-- The scale factor `sf(N)` of a width (R5, R109). -/
def scaleFactor : Width → Nat
  | .w8 => 4
  | .w16 => 8
  | .w32 => 16

/-- `sext_{8n}`: copy bit `8n - 1` upward (R6). -/
def sextBytes (n v : Nat) : Word := (BitVec.ofNat (8 * n) v).signExtend 32

/-- `zext_{8n}`: clear the bits from `8n` upward (R6). -/
def zextBytes (n v : Nat) : Word := (BitVec.ofNat (8 * n) v).setWidth 32

/-- `GetS(slot, n)`: a signed operand (R43). -/
def getS (s : State) (slot : Slot) (n : Nat) : Word := sextBytes n (s.memRead slot.offset n)

/-- `GetU(slot, n)`: an operand with zero upper bits (R43). -/
def getU (s : State) (slot : Slot) (n : Nat) : Word := zextBytes n (s.memRead slot.offset n)

/-- `Put(slot, n, w)`: deliver the low `8n` bits of a container word (R44). -/
def put (m : Memory) (slot : Slot) (n : Nat) (w : Word) : Memory := Memory.write m slot.offset n w.toNat

/-- `shl(v, k)`, total in the count (R8). -/
def shl (v : Word) (k : Nat) : Word := v <<< k

/-- `lsr(v, k)`, zero fill, total in the count (R8). -/
def lsr (v : Word) (k : Nat) : Word := v >>> k

/-- `asr(v, k)`, sign fill, total in the count (R8). -/
def asr (v : Word) (k : Nat) : Word := v.sshiftRight k

/-- Bit 31 of a container word. -/
def signBit (v : Word) : Bool := v.msb

end Sys2Proof.Machine
end

