-- ==== Sys2Proof/Machine/Scanner.lean ====
section
/-! DEFINITION. The bit_scanner (40_scanner.md): `CMPMAG`, `MSB`. -/

namespace Sys2Proof.Machine

/-- The outcomes of a magnitude comparison (R80). -/
inductive Magnitude where
  | equal
  | greater
  | less
  deriving DecidableEq, Repr

/-- The descending-mask scan of `compareMagnitude` (R80); the first argument bounds the passes (R176). -/
def compareScan : Nat → Word → Word → Word → Magnitude
  | 0, _, _, _ => .equal
  | k + 1, mask, a, b =>
    if mask = 0#32 then .equal
    else if a &&& mask ≠ b &&& mask then
      (if a &&& mask ≠ 0#32 then .greater else .less)
    else compareScan k (lsr mask 1) a b

/-- `compareMagnitude(a, b)` on unsigned naturals (R80). -/
def compareMagnitude (a b : Word) : Magnitude := compareScan 32 0x80000000#32 a b

/-- The descending-mask scan of `mostSignificantSetBit` (R81). -/
def msbScan : Nat → Word → Word → Word
  | 0, _, _ => 0#32
  | k + 1, mask, a =>
    if mask = 0#32 then 0#32
    else if a &&& mask ≠ 0#32 then mask
    else msbScan k (lsr mask 1) a

/-- `mostSignificantSetBit(a)`: the mask of the highest set bit, or zero (R81). -/
def mostSignificantSetBit (a : Word) : Word := msbScan 32 0x80000000#32 a

/-- The code `CMPMAG` delivers (R80). -/
def Magnitude.code : Magnitude → Word
  | .equal => 0#32
  | .greater => 1#32
  | .less => 2#32

/-- `CMPMAG.W32` (R80). -/
def execCmpmagW32 (s : State) : Result :=
  .next (complete (put s.v .r 4 (compareMagnitude (getU s .a 4) (getU s .b 4)).code) s)

/-- `MSB.W32` (R81). -/
def execMsbW32 (s : State) : Result :=
  .next (complete (put s.v .r 4 (mostSignificantSetBit (getU s .a 4))) s)

end Sys2Proof.Machine
end

