-- ==== Sys2Proof/Machine/Integer.lean ====
section
/-! DEFINITION. The integer engine (41_integer.md): the ripple-carry adder with negation and subtraction, the
shift-and-add multiplier and the restoring divider. The loops are the spec's own; their first argument bounds
the passes by R176 (log 22). -/

namespace Sys2Proof.Machine

/-- The ripple-carry loop of `addWord` (R91). -/
def addLoop : Nat → Word → Word → Word
  | 0, a, _ => a
  | k + 1, a, b => if b = 0#32 then a else addLoop k (a ^^^ b) (shl (a &&& b) 1)

/-- `addWord(a, b)` (R91). -/
def addWord (a b : Word) : Word := addLoop 32 a b

/-- `negateWord(a)` (R92). -/
def negateWord (a : Word) : Word := addWord (~~~a) 0x00000001#32

/-- `subtractWord(a, b)` (R93). -/
def subtractWord (a b : Word) : Word := addWord a (negateWord b)

/-- The shift-and-add loop of `multiplyWord` (R94). -/
def mulLoop : Nat → Word → Word → Word → Word → Word
  | 0, acc, _, _, _ => acc
  | k + 1, acc, mask, a, b =>
    if mask = 0#32 then acc
    else mulLoop k (if a &&& mask ≠ 0#32 then addWord acc b else acc) (shl mask 1) a (shl b 1)

/-- `multiplyWord(a, b)` (R94). -/
def multiplyWord (a b : Word) : Word := mulLoop 32 0#32 0x00000001#32 a b

/-- The inner search of `divideMagnitude` (R96): raise the shift while a further place loses no set bit and does
not pass the remainder. The first argument counts the places left before `s = 31`. -/
def shiftSearch : Nat → Word → Word → Nat → Nat
  | 0, _, _, s => s
  | k + 1, mb, r, s =>
    if lsr (shl mb (s + 1)) (s + 1) = mb ∧ compareMagnitude (shl mb (s + 1)) r ≠ .greater then
      shiftSearch k mb r (s + 1)
    else s

/-- The outer loop of `divideMagnitude` (R96), with the quotient so far, the remainder and the divisor. -/
def divideLoop : Nat → Word → Word → Word → Word × Word
  | 0, q, r, _ => (q, r)
  | k + 1, q, r, mb =>
    if compareMagnitude r mb ≠ .less then
      let s := shiftSearch 31 mb r 0
      divideLoop k (addWord q (shl 0x00000001#32 s)) (subtractWord r (shl mb s)) mb
    else (q, r)

/-- `divideMagnitude(ma, mb)`, the restoring long division on magnitudes, for a divisor that is not zero (R96). -/
def divideMagnitude (ma mb : Word) : Word × Word := divideLoop 32 0#32 ma mb

/-- The magnitude of a word: `negateWord` of it when bit 31 is set (R95, R97). -/
def magnitude (v : Word) : Word := if signBit v then negateWord v else v

/-- `divideWord(a, b)`: truncating quotient and remainder with the dividend's sign (R95). It has no value for
`b = 0` (U8, log 14). -/
def divideWord (a b : Word) : Option (Word × Word) :=
  if b = 0#32 then none
  else
    let (q, r) := divideMagnitude (magnitude a) (magnitude b)
    some (if xor (signBit a) (signBit b) then negateWord q else q,
      if signBit a then negateWord r else r)

/-- A command of two signed operands and one result (R90). -/
def binaryCommand (f : Word → Word → Word) (w : Width) (s : State) : State :=
  complete (put s.v .r (widthBytes w) (f (getS s .a (widthBytes w)) (getS s .b (widthBytes w)))) s

/-- The `NEG` command at a width: one signed operand, one result (R90, R92). -/
def negCommand (w : Width) (s : State) : State :=
  complete (put s.v .r (widthBytes w) (negateWord (getS s .a (widthBytes w)))) s

/-- The `DIV` command at a width (R95). It is the caller that checks the divisor (R151). -/
def divCommand (w : Width) (s : State) : State :=
  match divideWord (getS s .a (widthBytes w)) (getS s .b (widthBytes w)) with
  | none => raise .divideByZero s
  | some (q, r) => complete (put (put s.v .r (widthBytes w) q) .r2 (widthBytes w) r) s

/-- `ADD.W8` (R91). -/
def execAddW8 (s : State) : Result := .next (binaryCommand addWord .w8 s)

/-- `ADD.W16` (R91). -/
def execAddW16 (s : State) : Result := .next (binaryCommand addWord .w16 s)

/-- `ADD.W32` (R91). -/
def execAddW32 (s : State) : Result := .next (binaryCommand addWord .w32 s)

/-- `NEG.W8` (R92). -/
def execNegW8 (s : State) : Result := .next (negCommand .w8 s)

/-- `NEG.W16` (R92). -/
def execNegW16 (s : State) : Result := .next (negCommand .w16 s)

/-- `NEG.W32` (R92). -/
def execNegW32 (s : State) : Result := .next (negCommand .w32 s)

/-- `SUB.W8` (R93). -/
def execSubW8 (s : State) : Result := .next (binaryCommand subtractWord .w8 s)

/-- `SUB.W16` (R93). -/
def execSubW16 (s : State) : Result := .next (binaryCommand subtractWord .w16 s)

/-- `SUB.W32` (R93). -/
def execSubW32 (s : State) : Result := .next (binaryCommand subtractWord .w32 s)

/-- `MUL.W8` (R94). -/
def execMulW8 (s : State) : Result := .next (binaryCommand multiplyWord .w8 s)

/-- `MUL.W16` (R94). -/
def execMulW16 (s : State) : Result := .next (binaryCommand multiplyWord .w16 s)

/-- `MUL.W32` (R94). -/
def execMulW32 (s : State) : Result := .next (binaryCommand multiplyWord .w32 s)

/-- `DIV.W8` (R95). -/
def execDivW8 (s : State) : Result := .next (divCommand .w8 s)

/-- `DIV.W16` (R95). -/
def execDivW16 (s : State) : Result := .next (divCommand .w16 s)

/-- `DIV.W32` (R95). -/
def execDivW32 (s : State) : Result := .next (divCommand .w32 s)

end Sys2Proof.Machine
end

