-- ==== Sys2Proof/Machine/FixedPoint.lean ====
section
/-! DEFINITION. The fixed-point layer (42_fixed_point.md): `FXENC`, `FXDEC`, `FXDIV`, and the 64-bit
floating-point value of slots `X` and `Y` (R113). -/

namespace Sys2Proof.Machine

/-- Bit 63 of a 64-bit floating-point pattern (R113). -/
def sign64 (x : Nat) : Bool := x / 2 ^ 63 % 2 == 1

/-- Bits 62 to 52, the exponent field (R113). -/
def exponent64 (x : Nat) : Nat := x / 2 ^ 52 % 2 ^ 11

/-- Bits 51 to 0, the fraction (R113). -/
def fraction64 (x : Nat) : Nat := x % 2 ^ 52

/-- Neither an infinity nor a not-a-number (R113). -/
def finite64 (x : Nat) : Bool := exponent64 x != 2047

/-- The exact value of a finite pattern is this integer divided by `2^1075` (R113): every finite value is a
multiple of `2^-1075`. -/
def scaledValue64 (x : Nat) : Int :=
  let m := if exponent64 x = 0 then fraction64 x * 2 else (2 ^ 52 + fraction64 x) * 2 ^ exponent64 x
  if sign64 x then -(m : Int) else m

/-- `RoundInt(num / 2^k)`: the nearest integer, an exact half by the tie rule (R110). -/
def roundInt (tie : RoundTie) (num : Int) (k : Nat) : Int :=
  let q := num / 2 ^ k
  let twice := 2 * (num % 2 ^ k)
  if twice < 2 ^ k then q
  else if 2 ^ k < twice then q + 1
  else
    match tie with
    | .towardPosInf => q + 1
    | .awayFromZero => if num < 0 then q else q + 1
    | .toEven => if q % 2 = 0 then q else q + 1

/-- `toFixedPoint(x, sf)` of a finite pattern: `RoundInt(x * 2^sf)` as a word (R110). -/
def toFixedPoint (tie : RoundTie) (x sf : Nat) : Word := word (roundInt tie (scaledValue64 x * 2 ^ sf) 1075)

/-- `encode64(k / 2^sf)` for an integer of at most 53 significant bits (R111, R113). -/
def encode64 (k : Int) (sf : Nat) : Nat :=
  if k = 0 then 0
  else
    let top := k.natAbs.log2
    (if k < 0 then 2 ^ 63 else 0) + (1023 + top - sf) * 2 ^ 52 + (k.natAbs - 2 ^ top) * 2 ^ (52 - top)

/-- `toRational(word, sf)` as a 64-bit pattern (R111). -/
def toRational (a : Word) (sf : Nat) : Nat := encode64 (sgn a) sf

/-- The loop of `divideFixedPoint` (R112): `f` counts down, `rem` is the running dividend, `acc` the quotient so
far. `none` only if the inner divider has no value. -/
def fixedLoop : Nat → Word → Word → Word → Option Word
  | 0, _, _, acc => some acc
  | f + 1, rem, mb, acc =>
    if rem = 0#32 then some acc
    else
      match divideWord rem mb with
      | none => none
      | some (q, r) => fixedLoop f (shl r 1) mb (acc ||| shl q (f + 1))

/-- `divideFixedPoint(a, b, sf)` (R112, R115); `none` stands for `raise DegenerateDivisor`. -/
def divideFixedPoint (a b : Word) (sf : Nat) : Option Word :=
  if b = 0#32 then none
  else
    match fixedLoop (sf + 1) (magnitude a) (magnitude b) 0#32 with
    | none => none
    | some acc =>
      let q := lsr acc 1
      some (if xor (signBit a) (signBit b) then negateWord q else q)

/-- The `FXENC` command at a width (R110). -/
def fxencCommand (w : Width) (s : State) : State :=
  let x := s.memRead Slot.x.offset 8
  if finite64 x then
    complete (put s.v .r (widthBytes w) (toFixedPoint Config.fxRoundTie x (scaleFactor w))) s
  else raise .invalidOperand s

/-- The `FXDEC` command at a width (R111). -/
def fxdecCommand (w : Width) (s : State) : State :=
  complete (Memory.write s.v Slot.y.offset 8 (toRational (getS s .a (widthBytes w)) (scaleFactor w))) s

/-- The `FXDIV` command at a width (R112). -/
def fxdivCommand (w : Width) (s : State) : State :=
  match divideFixedPoint (getS s .a (widthBytes w)) (getS s .b (widthBytes w)) (scaleFactor w) with
  | none => raise .degenerateDivisor s
  | some res => complete (put s.v .r (widthBytes w) res) s

/-- `FXENC.W8` (R110). -/
def execFxencW8 (s : State) : Result := .next (fxencCommand .w8 s)

/-- `FXENC.W16` (R110). -/
def execFxencW16 (s : State) : Result := .next (fxencCommand .w16 s)

/-- `FXENC.W32` (R110). -/
def execFxencW32 (s : State) : Result := .next (fxencCommand .w32 s)

/-- `FXDEC.W8` (R111). -/
def execFxdecW8 (s : State) : Result := .next (fxdecCommand .w8 s)

/-- `FXDEC.W16` (R111). -/
def execFxdecW16 (s : State) : Result := .next (fxdecCommand .w16 s)

/-- `FXDEC.W32` (R111). -/
def execFxdecW32 (s : State) : Result := .next (fxdecCommand .w32 s)

/-- `FXDIV.W8` (R112). -/
def execFxdivW8 (s : State) : Result := .next (fxdivCommand .w8 s)

/-- `FXDIV.W16` (R112). -/
def execFxdivW16 (s : State) : Result := .next (fxdivCommand .w16 s)

/-- `FXDIV.W32` (R112). -/
def execFxdivW32 (s : State) : Result := .next (fxdivCommand .w32 s)

end Sys2Proof.Machine
end

