-- ==== Sys2Proof/Machine/FloatUnit.lean ====
section
/-! DEFINITION. The parameterized_float_unit (43_float.md): `FDEC`, `FASM`, `FADD`, `FSUB`, `FMUL`, `FDIV`. The
signed mantissa is a two's-complement container word throughout (R135, R137). -/

namespace Sys2Proof.Machine

/-- The descriptor of the 16-bit format (R125). -/
def f16 : FloatFormat where
  bytes := 2
  signBitMask := 0x00008000#32
  mantissaWidth := 10
  mantissaMask := 0x000003FF#32
  implicitBitMask := 0x00000400#32
  exponentMask := 0x00007C00#32
  exponentBias := 0x0000000F#32
  zeroExponentEncoding := 0x00000000#32
  infinityExponentEncoding := 0x0000001F#32

/-- The descriptor of the 32-bit format (R125). -/
def f32 : FloatFormat where
  bytes := 4
  signBitMask := 0x80000000#32
  mantissaWidth := 23
  mantissaMask := 0x007FFFFF#32
  implicitBitMask := 0x00800000#32
  exponentMask := 0x7F800000#32
  exponentBias := 0x0000007F#32
  zeroExponentEncoding := 0x00000000#32
  infinityExponentEncoding := 0x000000FF#32

/-- `decompose(F, bits)`: biased exponent and signed mantissa (R126). -/
def decompose (F : FloatFormat) (bits : Word) : Word × Word :=
  let e := lsr (bits &&& F.exponentMask) F.mantissaWidth
  let m := (bits &&& F.mantissaMask) ||| F.implicitBitMask
  (e, if bits &&& F.signBitMask ≠ 0#32 then negateWord m else m)

/-- The normalising right shift of `reassemble` (R127): exponent and magnitude while the highest set bit is above
the implicit bit. -/
def normalizeRight : Nat → FloatFormat → Word → Word → Word × Word
  | 0, _, e, mag => (e, mag)
  | k + 1, F, e, mag =>
    if compareMagnitude (mostSignificantSetBit mag) F.implicitBitMask = .greater then
      normalizeRight k F (addWord e 0x00000001#32) (lsr mag 1)
    else (e, mag)

/-- The normalising left shift of `reassemble` (R127): while the highest set bit is below the implicit bit. -/
def normalizeLeft : Nat → FloatFormat → Word → Word → Word × Word
  | 0, _, e, mag => (e, mag)
  | k + 1, F, e, mag =>
    if compareMagnitude (mostSignificantSetBit mag) F.implicitBitMask = .less then
      normalizeLeft k F (subtractWord e 0x00000001#32) (shl mag 1)
    else (e, mag)

/-- `reassemble(F, e, m)` (R127). No clamping: an exponent outside its field is ORed in as it is. -/
def reassemble (F : FloatFormat) (e m : Word) : Word :=
  if m = 0#32 then shl F.zeroExponentEncoding F.mantissaWidth
  else
    let down := normalizeRight 32 F e (magnitude m)
    let up := normalizeLeft 32 F down.1 down.2
    (if signBit m then F.signBitMask else 0x00000000#32) |||
      shl up.1 F.mantissaWidth ||| (up.2 &&& F.mantissaMask)

/-- `align(ea, ma, eb, mb)`: the larger exponent, and the two mantissas at it (R130). -/
def align (ea ma eb mb : Word) : Word × Word × Word :=
  match compareMagnitude ea eb with
  | .greater => (ea, ma, asr mb (uns (subtractWord ea eb)))
  | .less => (eb, asr ma (uns (subtractWord eb ea)), mb)
  | .equal => (ea, ma, mb)

/-- `floatAdd(F, a, b)` (R131). -/
def floatAdd (F : FloatFormat) (a b : Word) : Word :=
  let (ea, ma) := decompose F a
  let (eb, mb) := decompose F b
  let (e, ma', mb') := align ea ma eb mb
  reassemble F e (addWord ma' mb')

/-- `floatSubtract(F, a, b)` (R132). -/
def floatSubtract (F : FloatFormat) (a b : Word) : Word :=
  let (ea, ma) := decompose F a
  let (eb, mb) := decompose F b
  let (e, ma', mb') := align ea ma eb mb
  reassemble F e (subtractWord ma' mb')

/-- `floatMultiply(F, a, b)`, with the 32-bit wrapping product (R133). -/
def floatMultiply (F : FloatFormat) (a b : Word) : Word :=
  let (ea, ma) := decompose F a
  let (eb, mb) := decompose F b
  reassemble F (subtractWord (addWord ea eb) F.exponentBias) (asr (multiplyWord ma mb) F.mantissaWidth)

/-- `floatDivide(F, a, b)` (R134); `none` stands for `raise DegenerateDivisor`. -/
def floatDivide (F : FloatFormat) (a b : Word) : Option Word :=
  let (ea, ma) := decompose F a
  let (eb, mb) := decompose F b
  match divideFixedPoint ma mb F.mantissaWidth with
  | none => none
  | some m => some (reassemble F (addWord (subtractWord ea eb) F.exponentBias) m)

/-- The `FDEC` command at a format: two full container words (R126). -/
def fdecCommand (F : FloatFormat) (s : State) : State :=
  let (e, m) := decompose F (getU s .a F.bytes)
  complete (put (put s.v .r 4 e) .r2 4 m) s

/-- The `FASM` command at a format: its operands are full container words (R127). -/
def fasmCommand (F : FloatFormat) (s : State) : State :=
  complete (put s.v .r F.bytes (reassemble F (getS s .a 4) (getS s .b 4))) s

/-- A float command of two patterns and one result. -/
def floatCommand (F : FloatFormat) (f : FloatFormat → Word → Word → Word) (s : State) : State :=
  complete (put s.v .r F.bytes (f F (getU s .a F.bytes) (getU s .b F.bytes))) s

/-- The `FDIV` command at a format (R134). -/
def fdivCommand (F : FloatFormat) (s : State) : State :=
  match floatDivide F (getU s .a F.bytes) (getU s .b F.bytes) with
  | none => raise .degenerateDivisor s
  | some res => complete (put s.v .r F.bytes res) s

/-- `FDEC.F16` (R126). -/
def execFdecF16 (s : State) : Result := .next (fdecCommand f16 s)

/-- `FDEC.F32` (R126). -/
def execFdecF32 (s : State) : Result := .next (fdecCommand f32 s)

/-- `FASM.F16` (R127). -/
def execFasmF16 (s : State) : Result := .next (fasmCommand f16 s)

/-- `FASM.F32` (R127). -/
def execFasmF32 (s : State) : Result := .next (fasmCommand f32 s)

/-- `FADD.F16` (R131). -/
def execFaddF16 (s : State) : Result := .next (floatCommand f16 floatAdd s)

/-- `FADD.F32` (R131). -/
def execFaddF32 (s : State) : Result := .next (floatCommand f32 floatAdd s)

/-- `FSUB.F16` (R132). -/
def execFsubF16 (s : State) : Result := .next (floatCommand f16 floatSubtract s)

/-- `FSUB.F32` (R132). -/
def execFsubF32 (s : State) : Result := .next (floatCommand f32 floatSubtract s)

/-- `FMUL.F16` (R133). -/
def execFmulF16 (s : State) : Result := .next (floatCommand f16 floatMultiply s)

/-- `FMUL.F32` (R133). -/
def execFmulF32 (s : State) : Result := .next (floatCommand f32 floatMultiply s)

/-- `FDIV.F16` (R134). -/
def execFdivF16 (s : State) : Result := .next (fdivCommand f16 s)

/-- `FDIV.F32` (R134). -/
def execFdivF32 (s : State) : Result := .next (fdivCommand f32 s)

end Sys2Proof.Machine
end

