-- ==== Sys2Proof/Machine/Dispatch.lean ====
section
/-! DEFINITION. Which meaning runs for which command. -/

namespace Sys2Proof.Machine

def exec (i : Instr) (s : State) : Host.Outcome State Fault Refusal :=
  match i with
  | .addW8 => Sys2Proof.Machine.execAddW8 s
  | .negW8 => Sys2Proof.Machine.execNegW8 s
  | .subW8 => Sys2Proof.Machine.execSubW8 s
  | .mulW8 => Sys2Proof.Machine.execMulW8 s
  | .divW8 => Sys2Proof.Machine.execDivW8 s
  | .fxencW8 => Sys2Proof.Machine.execFxencW8 s
  | .fxdecW8 => Sys2Proof.Machine.execFxdecW8 s
  | .fxdivW8 => Sys2Proof.Machine.execFxdivW8 s
  | .addW16 => Sys2Proof.Machine.execAddW16 s
  | .negW16 => Sys2Proof.Machine.execNegW16 s
  | .subW16 => Sys2Proof.Machine.execSubW16 s
  | .mulW16 => Sys2Proof.Machine.execMulW16 s
  | .divW16 => Sys2Proof.Machine.execDivW16 s
  | .fxencW16 => Sys2Proof.Machine.execFxencW16 s
  | .fxdecW16 => Sys2Proof.Machine.execFxdecW16 s
  | .fxdivW16 => Sys2Proof.Machine.execFxdivW16 s
  | .fdecF16 => Sys2Proof.Machine.execFdecF16 s
  | .fasmF16 => Sys2Proof.Machine.execFasmF16 s
  | .faddF16 => Sys2Proof.Machine.execFaddF16 s
  | .fsubF16 => Sys2Proof.Machine.execFsubF16 s
  | .fmulF16 => Sys2Proof.Machine.execFmulF16 s
  | .fdivF16 => Sys2Proof.Machine.execFdivF16 s
  | .cmpmagW32 => Sys2Proof.Machine.execCmpmagW32 s
  | .msbW32 => Sys2Proof.Machine.execMsbW32 s
  | .addW32 => Sys2Proof.Machine.execAddW32 s
  | .negW32 => Sys2Proof.Machine.execNegW32 s
  | .subW32 => Sys2Proof.Machine.execSubW32 s
  | .mulW32 => Sys2Proof.Machine.execMulW32 s
  | .divW32 => Sys2Proof.Machine.execDivW32 s
  | .fxencW32 => Sys2Proof.Machine.execFxencW32 s
  | .fxdecW32 => Sys2Proof.Machine.execFxdecW32 s
  | .fxdivW32 => Sys2Proof.Machine.execFxdivW32 s
  | .fdecF32 => Sys2Proof.Machine.execFdecF32 s
  | .fasmF32 => Sys2Proof.Machine.execFasmF32 s
  | .faddF32 => Sys2Proof.Machine.execFaddF32 s
  | .fsubF32 => Sys2Proof.Machine.execFsubF32 s
  | .fmulF32 => Sys2Proof.Machine.execFmulF32 s
  | .fdivF32 => Sys2Proof.Machine.execFdivF32 s

end Sys2Proof.Machine
end

