-- ==== Sys2Proof/Machine/Flags.lean ====
section
/-! DEFINITION. The status register. The block has no arithmetic flag (R26); all it reports is the code of the
most recent command's condition (R23, R150). -/

namespace Sys2Proof.Machine

/-- The code of a condition in `STATUS[2:0]` (R150). -/
def Condition.code : Condition → BitVec 3
  | .none => 0#3
  | .divideByZero => 1#3
  | .degenerateDivisor => 2#3
  | .invalidOperand => 3#3
  | .illegalCommand => 4#3

/-- `STATUS`: `COND` in bits 2 to 0, bits 7 to 3 zero (R23). -/
def State.status (s : State) : Byte := s.cond.code.setWidth 8

end Sys2Proof.Machine
end

