-- ==== Sys2Proof/Machine/HostPort.lean ====
section
/-! DEFINITION. What each host step does (R22, R23, R45, R60, R170). Decoding a written byte and running the
command is `hostCommand`. -/

namespace Sys2Proof.Machine

/-- Stop a host access whose width or bytes the block does not have (R45, U3), else go on (log 6). -/
def hostAccess (off n : Nat) (s : State) : Result :=
  if n = 1 ∨ n = 2 ∨ n = 4 ∨ n = 8 then
    if off + n ≤ bufferSize then .next s else .fault (.noSuchByte off n)
  else .refused (.noSuchWidth n)

/-- Append a value returned to the host (R178). -/
def reply (r : HostReply) (s : State) : State := { s with replies := s.replies ++ [r] }

/-- `HostSet(off, n, v)` is `MemWrite(off, n, v)` (R45). -/
def hostSet (off n v : Nat) (s : State) : Result :=
  hostAccess off n { s with v := Memory.write s.v off n v }

/-- `HostGet(off, n)` returns `MemRead(off, n)` and changes nothing (R45, R48). -/
def hostGet (off n : Nat) (s : State) : Result :=
  hostAccess off n (reply (.value (s.memRead off n)) s)

/-- `HostCmd(c)`: `CMD` takes the byte, the byte is decoded, and the command runs to its end or the block raises
`IllegalCommand`, all in one step (R60, R65). -/
def hostCommand (c : Byte) (s : State) : Result :=
  match decode c with
  | .instr i => exec i { s with cmd := c }
  | .illegal _ => .next (raise .illegalCommand { s with cmd := c })

/-- Reset (R170): every spec register at its reset value, `V` unwritten again with new free contents. The host's
script goes on and what it has read stays read (log 9). -/
def hostReset (s : State) : State :=
  { State.reset with resets := s.resets + 1, script := s.script, replies := s.replies }

/-- One host step. -/
def hostStep (h : HostStep) (s : State) : Result :=
  match h with
  | .set off n v => hostSet off n v s
  | .get off n => hostGet off n s
  | .command c => hostCommand c s
  | .readStatus => .next (reply (.status s.status) s)
  | .readCommand => .next (reply (.command s.cmd) s)
  | .writeStatus _ => .refused .statusReadOnly
  | .reset => .next (hostReset s)

/-- Take the next host step off the script; with none left the block is idle and nothing changes (R178, log 3). -/
def nextHostStep (s : State) : Result :=
  match s.script with
  | [] => .next s
  | h :: rest => hostStep h { s with script := rest }

/-- Put a write of `CMD` in front of the script: the low bits of `w`, at most one byte. -/
def placeCommand (s : State) (nbits w : Nat) : State :=
  { s with script := .command (BitVec.ofNat 8 (w % 2 ^ nbits)) :: s.script }

end Sys2Proof.Machine
end

