-- ==== Sys2Proof/Machine/Step.lean ====
section
/-! DEFINITION. One step of the machine: the next host step (R178). There is no program counter and no fetch
(R25); a command comes from the host's write of `CMD`. -/

namespace Sys2Proof.Machine

/-- One step: take the next host step of the script. -/
def step (s : State) : Host.Outcome State Fault Refusal := nextHostStep s

/-- The state whose next host step writes the command byte to `CMD` (log 3). -/
def State.withFetchWord (s : State) (nbits w : Nat) : State := placeCommand s nbits w

end Sys2Proof.Machine
end

