-- ==== Sys2Proof/WellFormed.lean ====
section
/-! DEFINITION. What is well formed. A command is its two fields (R61); R64 says which pairs of fields
are legal. A host step is well formed when the block has the bytes and the width it names (R45) and it
does not write `STATUS` (R23). -/

namespace Sys2Proof

/-- The last sentence of R64: the legal command words, by their three fields. -/
def legalFields (top sel op : Nat) : Bool :=
  top == 0 && (sel == 2 || (sel == 1 && decide (2 ≤ op)) || (sel == 0 && decide (2 ≤ op) && decide (op ≤ 9)))

/-- The `op` field of a command (R62). -/
def Instr.op : Instr → Nat
  | .addW8 => 2
  | .negW8 => 3
  | .subW8 => 4
  | .mulW8 => 5
  | .divW8 => 6
  | .fxencW8 => 7
  | .fxdecW8 => 8
  | .fxdivW8 => 9
  | .addW16 => 2
  | .negW16 => 3
  | .subW16 => 4
  | .mulW16 => 5
  | .divW16 => 6
  | .fxencW16 => 7
  | .fxdecW16 => 8
  | .fxdivW16 => 9
  | .fdecF16 => 10
  | .fasmF16 => 11
  | .faddF16 => 12
  | .fsubF16 => 13
  | .fmulF16 => 14
  | .fdivF16 => 15
  | .cmpmagW32 => 0
  | .msbW32 => 1
  | .addW32 => 2
  | .negW32 => 3
  | .subW32 => 4
  | .mulW32 => 5
  | .divW32 => 6
  | .fxencW32 => 7
  | .fxdecW32 => 8
  | .fxdivW32 => 9
  | .fdecF32 => 10
  | .fasmF32 => 11
  | .faddF32 => 12
  | .fsubF32 => 13
  | .fmulF32 => 14
  | .fdivF32 => 15

/-- The `sel` field of a command (R63). -/
def Instr.sel : Instr → Nat
  | .addW8 => 0
  | .negW8 => 0
  | .subW8 => 0
  | .mulW8 => 0
  | .divW8 => 0
  | .fxencW8 => 0
  | .fxdecW8 => 0
  | .fxdivW8 => 0
  | .addW16 => 1
  | .negW16 => 1
  | .subW16 => 1
  | .mulW16 => 1
  | .divW16 => 1
  | .fxencW16 => 1
  | .fxdecW16 => 1
  | .fxdivW16 => 1
  | .fdecF16 => 1
  | .fasmF16 => 1
  | .faddF16 => 1
  | .fsubF16 => 1
  | .fmulF16 => 1
  | .fdivF16 => 1
  | .cmpmagW32 => 2
  | .msbW32 => 2
  | .addW32 => 2
  | .negW32 => 2
  | .subW32 => 2
  | .mulW32 => 2
  | .divW32 => 2
  | .fxencW32 => 2
  | .fxdecW32 => 2
  | .fxdivW32 => 2
  | .fdecF32 => 2
  | .fasmF32 => 2
  | .faddF32 => 2
  | .fsubF32 => 2
  | .fmulF32 => 2
  | .fdivF32 => 2

/-- A command is well formed when its fields are a legal pair (R64). It has no operand to check (R66). -/
def Instr.wellFormed (i : Instr) : Bool :=
  decide (i.op < 16) && legalFields 0 i.sel i.op

/-- The widths of a host access, in bytes (R45). -/
def hostWidth (n : Nat) : Bool := n == 1 || n == 2 || n == 4 || n == 8

/-- A host step the model gives a meaning, whether or not the bytes it reads are written (log 1): width 1, 2, 4 or 8,
all bytes inside `V` (R45, U3), and no write of the read-only `STATUS` (R23, U4). -/
def HostStep.wellFormed : HostStep → Bool
  | .set off n _ => hostWidth n && decide (off + n ≤ 32)
  | .get off n => hostWidth n && decide (off + n ≤ 32)
  | .command _ => true
  | .readStatus => true
  | .readCommand => true
  | .writeStatus _ => false
  | .reset => true

end Sys2Proof
end

