-- ==== Sys2Proof/Safety.lean ====
section
/-! DEFINITION. What counts as a safe run, and the terms the claims use: the invariant, the slots each command
reads and writes (R30), the conditions each may raise (R150), and what it is to deliver a result. -/

namespace Sys2Proof.Machine

/-- The invariant every step keeps: `V` is in its canonical form, all of it inside the 32 bytes (R21, log 18). -/
abbrev State.Inv (s : State) : Prop := Memory.wf s.v

/-- Every host step still in the script is one the model gives a meaning (R45). What the steps read may be unwritten
(log 1). -/
abbrev State.scriptWellFormed (s : State) : Prop := ∀ h ∈ s.script, h.wellFormed = true

/-- The byte ranges (offset, count) a command reads (R30). -/
def operandRanges : Instr → List (Nat × Nat)
  | .addW8 => [(0, 1), (4, 1)]
  | .negW8 => [(0, 1)]
  | .subW8 => [(0, 1), (4, 1)]
  | .mulW8 => [(0, 1), (4, 1)]
  | .divW8 => [(0, 1), (4, 1)]
  | .fxencW8 => [(16, 8)]
  | .fxdecW8 => [(0, 1)]
  | .fxdivW8 => [(0, 1), (4, 1)]
  | .addW16 => [(0, 2), (4, 2)]
  | .negW16 => [(0, 2)]
  | .subW16 => [(0, 2), (4, 2)]
  | .mulW16 => [(0, 2), (4, 2)]
  | .divW16 => [(0, 2), (4, 2)]
  | .fxencW16 => [(16, 8)]
  | .fxdecW16 => [(0, 2)]
  | .fxdivW16 => [(0, 2), (4, 2)]
  | .fdecF16 => [(0, 2)]
  | .fasmF16 => [(0, 4), (4, 4)]
  | .faddF16 => [(0, 2), (4, 2)]
  | .fsubF16 => [(0, 2), (4, 2)]
  | .fmulF16 => [(0, 2), (4, 2)]
  | .fdivF16 => [(0, 2), (4, 2)]
  | .cmpmagW32 => [(0, 4), (4, 4)]
  | .msbW32 => [(0, 4)]
  | .addW32 => [(0, 4), (4, 4)]
  | .negW32 => [(0, 4)]
  | .subW32 => [(0, 4), (4, 4)]
  | .mulW32 => [(0, 4), (4, 4)]
  | .divW32 => [(0, 4), (4, 4)]
  | .fxencW32 => [(16, 8)]
  | .fxdecW32 => [(0, 4)]
  | .fxdivW32 => [(0, 4), (4, 4)]
  | .fdecF32 => [(0, 4)]
  | .fasmF32 => [(0, 4), (4, 4)]
  | .faddF32 => [(0, 4), (4, 4)]
  | .fsubF32 => [(0, 4), (4, 4)]
  | .fmulF32 => [(0, 4), (4, 4)]
  | .fdivF32 => [(0, 4), (4, 4)]

/-- The byte ranges (offset, count) a command writes when it returns a result (R30). -/
def resultRanges : Instr → List (Nat × Nat)
  | .addW8 => [(8, 1)]
  | .negW8 => [(8, 1)]
  | .subW8 => [(8, 1)]
  | .mulW8 => [(8, 1)]
  | .divW8 => [(8, 1), (12, 1)]
  | .fxencW8 => [(8, 1)]
  | .fxdecW8 => [(24, 8)]
  | .fxdivW8 => [(8, 1)]
  | .addW16 => [(8, 2)]
  | .negW16 => [(8, 2)]
  | .subW16 => [(8, 2)]
  | .mulW16 => [(8, 2)]
  | .divW16 => [(8, 2), (12, 2)]
  | .fxencW16 => [(8, 2)]
  | .fxdecW16 => [(24, 8)]
  | .fxdivW16 => [(8, 2)]
  | .fdecF16 => [(8, 4), (12, 4)]
  | .fasmF16 => [(8, 2)]
  | .faddF16 => [(8, 2)]
  | .fsubF16 => [(8, 2)]
  | .fmulF16 => [(8, 2)]
  | .fdivF16 => [(8, 2)]
  | .cmpmagW32 => [(8, 4)]
  | .msbW32 => [(8, 4)]
  | .addW32 => [(8, 4)]
  | .negW32 => [(8, 4)]
  | .subW32 => [(8, 4)]
  | .mulW32 => [(8, 4)]
  | .divW32 => [(8, 4), (12, 4)]
  | .fxencW32 => [(8, 4)]
  | .fxdecW32 => [(24, 8)]
  | .fxdivW32 => [(8, 4)]
  | .fdecF32 => [(8, 4), (12, 4)]
  | .fasmF32 => [(8, 4)]
  | .faddF32 => [(8, 4)]
  | .fsubF32 => [(8, 4)]
  | .fmulF32 => [(8, 4)]
  | .fdivF32 => [(8, 4)]

/-- What `COND` can be after a command (R150): `FDIV` cannot raise (R134). -/
def possibleConditions : Instr → List Condition
  | .addW8 => [.none]
  | .negW8 => [.none]
  | .subW8 => [.none]
  | .mulW8 => [.none]
  | .divW8 => [.none, .divideByZero]
  | .fxencW8 => [.none, .invalidOperand]
  | .fxdecW8 => [.none]
  | .fxdivW8 => [.none, .degenerateDivisor]
  | .addW16 => [.none]
  | .negW16 => [.none]
  | .subW16 => [.none]
  | .mulW16 => [.none]
  | .divW16 => [.none, .divideByZero]
  | .fxencW16 => [.none, .invalidOperand]
  | .fxdecW16 => [.none]
  | .fxdivW16 => [.none, .degenerateDivisor]
  | .fdecF16 => [.none]
  | .fasmF16 => [.none]
  | .faddF16 => [.none]
  | .fsubF16 => [.none]
  | .fmulF16 => [.none]
  | .fdivF16 => [.none]
  | .cmpmagW32 => [.none]
  | .msbW32 => [.none]
  | .addW32 => [.none]
  | .negW32 => [.none]
  | .subW32 => [.none]
  | .mulW32 => [.none]
  | .divW32 => [.none, .divideByZero]
  | .fxencW32 => [.none, .invalidOperand]
  | .fxdecW32 => [.none]
  | .fxdivW32 => [.none, .degenerateDivisor]
  | .fdecF32 => [.none]
  | .fasmF32 => [.none]
  | .faddF32 => [.none]
  | .fsubF32 => [.none]
  | .fmulF32 => [.none]
  | .fdivF32 => [.none]

/-- An offset lies in one of the ranges. -/
def inRanges (ranges : List (Nat × Nat)) (a : Nat) : Prop := ∃ p ∈ ranges, p.1 ≤ a ∧ a < p.1 + p.2

/-- From `s` to `t` the block returned a result: each listed range (offset, count) holds the value and is written,
no other byte of `V` changed, `COND` is 0, and nothing else changed (R30, R60). -/
def Delivers (s t : State) (results : List (Nat × Nat × Nat)) : Prop :=
  t = { s with v := t.v, cond := .none } ∧
  (∀ p ∈ results, t.memRead p.1 p.2.1 = p.2.2) ∧
  (∀ p ∈ results, ∀ a, p.1 ≤ a → a < p.1 + p.2.1 → (Memory.byteAt? t.v a).isSome = true) ∧
  (∀ a, (∀ p ∈ results, a < p.1 ∨ p.1 + p.2.1 ≤ a) → Memory.byteAt? t.v a = Memory.byteAt? s.v a)

/-- The signed reading of an `n`-byte value (R6). -/
def signedOf (n x : Nat) : Int := if 2 * x < 256 ^ n then (x : Int) else (x : Int) - 256 ^ n

/-- The low `n` bytes of an integer in two's complement (R44). -/
def lowBytes (n : Nat) (k : Int) : Nat := (k % 256 ^ n).toNat

/-- The exact rational a finite 64-bit pattern stands for (R113). -/
def value64 (x : Nat) : ℚ :=
  (if x / 2 ^ 63 % 2 = 0 then 1 else -1) *
    (if x / 2 ^ 52 % 2 ^ 11 = 0 then ((x % 2 ^ 52 : Nat) : ℚ) / 2 ^ 52 * (2 : ℚ) ^ (-1022 : Int)
    else (1 + ((x % 2 ^ 52 : Nat) : ℚ) / 2 ^ 52) * (2 : ℚ) ^ (((x / 2 ^ 52 % 2 ^ 11 : Nat) : Int) - 1023))

/-- `RoundInt` (R110): `v` is the integer nearest to `t`, and at an exact half the one `FX_ROUND_TIE` names. -/
def RoundsTo (tie : RoundTie) (t : ℚ) (v : Int) : Prop :=
  if Int.fract t = 1 / 2 then
    match tie with
    | .towardPosInf => v = ⌊t + 1 / 2⌋
    | .awayFromZero => v = (if 0 ≤ t then 1 else -1) * ⌊|t| + 1 / 2⌋
    | .toEven => |(v : ℚ) - t| = 1 / 2 ∧ v % 2 = 0
  else |(v : ℚ) - t| < 1 / 2

/-- The exponent field of an `n`-byte float pattern with `mw` mantissa bits (R125). -/
def exponentOf (n mw x : Nat) : Nat := x / 2 ^ mw % 2 ^ (8 * n - 1 - mw)

/-- The signed mantissa of a float pattern, implicit bit included (R126). -/
def mantissaOf (n mw x : Nat) : Int :=
  (if x / 2 ^ (8 * n - 1) % 2 = 0 then 1 else -1) * ((x % 2 ^ mw + 2 ^ mw : Nat) : Int)

/-- The `n`-byte pattern `reassemble` makes of an exponent and a signed mantissa (R127): normalised to the
implicit bit with truncation, the exponent modulo `2^32` ORed in at its field. -/
def assembled (n mw : Nat) (e m : Int) : Nat :=
  if m = 0 then 0
  else
    let top := m.natAbs.log2
    let field := (if mw ≤ top then m.natAbs / 2 ^ (top - mw) else m.natAbs * 2 ^ (mw - top)) % 2 ^ mw
    let exponent := lowBytes 4 (e + top - mw) * 2 ^ mw % 2 ^ 32
    ((if m < 0 then 2 ^ (8 * n - 1) else 0) ||| exponent ||| field) % 256 ^ n

/-- The mantissa at the larger exponent: a floor of the division by the power of two (R130, R136). -/
def alignedMantissa (e own : Nat) (m : Int) : Int := m / 2 ^ (e - own)

end Sys2Proof.Machine
end

