-- ==== Sys2Proof/Certificates/Slice0/Obligations.lean ====
section
/-! DEFINITION. The statements for the provers. The clauses that several commands share are named first; slots
are written as their offsets: `A` 0, `B` 4, `R` 8, `R2` 12, `X` 16, `Y` 24 (R21). -/

open Sys2Proof Sys2Proof.Machine

namespace Sys2Proof.Claims

/-- The command delivers in `R` a function of the `n`-byte values in `A` and `B`, in every state. -/
def DeliversBinary (i : Instr) (n : Nat) (f : Nat → Nat → Nat) : Prop :=
  ∀ s : State, ∃ t, exec i s = .next t ∧ Delivers s t [(8, n, f (s.memRead 0 n) (s.memRead 4 n))]

/-- `ADD` at `n` bytes: the sum modulo `2^(8n)`. -/
def AddsAt (i : Instr) (n : Nat) : Prop := DeliversBinary i n fun x y => (x + y) % 256 ^ n

/-- `SUB` at `n` bytes: the difference modulo `2^(8n)`. -/
def SubtractsAt (i : Instr) (n : Nat) : Prop := DeliversBinary i n fun x y => (x + 256 ^ n - y) % 256 ^ n

/-- `MUL` at `n` bytes: the product modulo `2^(8n)`. -/
def MultipliesAt (i : Instr) (n : Nat) : Prop := DeliversBinary i n fun x y => x * y % 256 ^ n

/-- `NEG` at `n` bytes: the negation modulo `2^(8n)`; slot `B` plays no part. -/
def NegatesAt (i : Instr) (n : Nat) : Prop :=
  ∀ s : State, ∃ t, exec i s = .next t ∧ Delivers s t [(8, n, (256 ^ n - s.memRead 0 n) % 256 ^ n)]

/-- `DIV` at `n` bytes with a divisor that is not zero: the truncating quotient in `R`, the remainder in `R2`. -/
def DividesAt (i : Instr) (n : Nat) : Prop :=
  ∀ s : State, s.memRead 4 n ≠ 0 → ∃ t, exec i s = .next t ∧
    Delivers s t
      [(8, n, lowBytes n ((signedOf n (s.memRead 0 n)).tdiv (signedOf n (s.memRead 4 n)))),
        (12, n, lowBytes n ((signedOf n (s.memRead 0 n)).tmod (signedOf n (s.memRead 4 n))))]

/-- With a zero divisor of `n` bytes the command raises the condition: `COND` changes and nothing else. -/
def RaisesOnZeroDivisor (i : Instr) (n : Nat) (c : Condition) : Prop :=
  ∀ s : State, s.memRead 4 n = 0 → exec i s = .next { s with cond := c }

/-- `FXENC` at `n` bytes and scale `sf`, on a finite pattern: the low bytes of the rounded exact product. -/
def EncodesAt (i : Instr) (n sf : Nat) : Prop :=
  ∀ s : State, s.memRead 16 8 / 2 ^ 52 % 2 ^ 11 ≠ 2047 → ∃ t v, exec i s = .next t ∧
    RoundsTo Config.fxRoundTie (value64 (s.memRead 16 8) * 2 ^ sf) v ∧ Delivers s t [(8, n, lowBytes n v)]

/-- `FXENC` on an infinity or a not-a-number: `COND` changes and nothing else. -/
def RaisesOnNonFinite (i : Instr) : Prop :=
  ∀ s : State, s.memRead 16 8 / 2 ^ 52 % 2 ^ 11 = 2047 → exec i s = .next { s with cond := .invalidOperand }

/-- `FXDEC` at `n` bytes and scale `sf`: a finite pattern in `Y` whose exact value is the word over `2^sf`; the zero
word gives the all-zero pattern. -/
def DecodesAt (i : Instr) (n sf : Nat) : Prop :=
  ∀ s : State, ∃ t y, exec i s = .next t ∧ Delivers s t [(24, 8, y)] ∧ y / 2 ^ 52 % 2 ^ 11 ≠ 2047 ∧
    value64 y = (signedOf n (s.memRead 0 n) : ℚ) / 2 ^ sf ∧ (s.memRead 0 n = 0 → y = 0)

/-- `FXENC` of the rational that `FXDEC` made of an `n`-byte word delivers the word. -/
def EncodeInverts (enc dec : Instr) (n : Nat) : Prop :=
  ∀ s t u : State, exec dec s = .next t → u.memRead 16 8 = t.memRead 24 8 →
    ∃ t', exec enc u = .next t' ∧ Delivers u t' [(8, n, s.memRead 0 n)]

/-- `FXDEC` of the `n`-byte word that `FXENC` made of a rational `k / 2^sf` inside the range of R109 delivers the
rational. -/
def DecodeInverts (enc dec : Instr) (n sf : Nat) : Prop :=
  ∀ (s t u : State) (k : Int), s.memRead 16 8 / 2 ^ 52 % 2 ^ 11 ≠ 2047 → value64 (s.memRead 16 8) = (k : ℚ) / 2 ^ sf →
    -256 ^ n ≤ 2 * k → 2 * k < 256 ^ n → exec enc s = .next t → u.memRead 0 n = t.memRead 8 n →
    ∃ t' y, exec dec u = .next t' ∧ Delivers u t' [(24, 8, y)] ∧ y / 2 ^ 52 % 2 ^ 11 ≠ 2047 ∧
      value64 y = value64 (s.memRead 16 8)

/-- The dividend scaled by `2^sf` over the divisor, truncated toward zero, as `n` bytes. -/
def scaledQuotient (n sf x y : Nat) : Nat := lowBytes n ((signedOf n x * 2 ^ sf).tdiv (signedOf n y))

/-- `FDEC`: exponent word in `R`, signed-mantissa word in `R2`, 4 bytes each. -/
def DecomposesAt (i : Instr) (n mw : Nat) : Prop :=
  ∀ s : State, ∃ t, exec i s = .next t ∧
    Delivers s t [(8, 4, exponentOf n mw (s.memRead 0 n)), (12, 4, lowBytes 4 (mantissaOf n mw (s.memRead 0 n)))]

/-- `FASM`: the pattern of the two container words in `A` and `B`. -/
def ReassemblesAt (i : Instr) (n mw : Nat) : Prop :=
  ∀ s : State, ∃ t, exec i s = .next t ∧
    Delivers s t [(8, n, assembled n mw (s.memRead 0 4) (signedOf 4 (s.memRead 4 4)))]

/-- `FASM` of what `FDEC` delivered for an `n`-byte pattern delivers the pattern. -/
def ReassembleInverts (asm dec : Instr) (n : Nat) : Prop :=
  ∀ s t u : State, exec dec s = .next t → u.memRead 0 4 = t.memRead 8 4 → u.memRead 4 4 = t.memRead 12 4 →
    ∃ t', exec asm u = .next t' ∧ Delivers u t' [(8, n, s.memRead 0 n)]

/-- `FADD` and `FSUB` combine the two mantissas at the larger exponent. -/
def CombinesAligned (i : Instr) (n mw : Nat) (f : Int → Int → Int) : Prop :=
  DeliversBinary i n fun x y =>
    let e := max (exponentOf n mw x) (exponentOf n mw y)
    assembled n mw e (f (alignedMantissa e (exponentOf n mw x) (mantissaOf n mw x))
      (alignedMantissa e (exponentOf n mw y) (mantissaOf n mw y)))

/-- `FMUL` with the product of the two mantissas as the 32-bit container holds it. -/
def MultipliesFloats (i : Instr) (n mw bias : Nat) : Prop :=
  DeliversBinary i n fun x y =>
    assembled n mw ((exponentOf n mw x : Int) + exponentOf n mw y - bias)
      (signedOf 4 (lowBytes 4 (mantissaOf n mw x * mantissaOf n mw y)) / 2 ^ mw)

/-- `FDIV` with the quotient of the two mantissas truncated toward zero. -/
def DividesFloats (i : Instr) (n mw bias : Nat) : Prop :=
  DeliversBinary i n fun x y =>
    assembled n mw ((exponentOf n mw x : Int) - exponentOf n mw y + bias)
      ((mantissaOf n mw x * 2 ^ mw).tdiv (mantissaOf n mw y))

/-- Swapping the operands does not change the `n`-byte result. -/
def Commutes (i : Instr) (n : Nat) : Prop :=
  ∀ s u t t' : State, u.memRead 0 n = s.memRead 4 n → u.memRead 4 n = s.memRead 0 n →
    exec i s = .next t → exec i u = .next t' → t'.memRead 8 n = t.memRead 8 n

/-- The code of a condition (R150), as the table there lists it. -/
def conditionNumber (c : Condition) : Nat :=
  match c with
  | .none => 0
  | .divideByZero => 1
  | .degenerateDivisor => 2
  | .invalidOperand => 3
  | .illegalCommand => 4

/-- The host's access to `n` bytes at `off` is one the block has. -/
def HostCanAccess (off n : Nat) : Prop := (n = 1 ∨ n = 2 ∨ n = 4 ∨ n = 8) ∧ off + n ≤ 32

end Sys2Proof.Claims

open Sys2Proof.Claims

/-- R29, R170, R172: after reset `CMD` and `STATUS` are zero and no byte of `V` is written. -/
def Obligations.ResetZeroesRegistersAndLeavesBufferUnwritten : Prop :=
  State.reset.cmd = 0x00#8 ∧ State.reset.status = 0x00#8 ∧ State.reset.cond = .none ∧
    ∀ a, Memory.byteAt? State.reset.v a = none

/-- R170 as a step: the platform's reset, from any state. That the rest of the script and the replies stay is the
model's choice (log 9), and so is the counter of resets (log 2). -/
def Obligations.ResetStepClearsRegistersAndBuffer : Prop :=
  ∀ (s : State) (rest : List HostStep), s.script = .reset :: rest →
    ∃ t, step s = .next t ∧ t.cmd = 0x00#8 ∧ t.status = 0x00#8 ∧ t.cond = .none ∧
      (∀ a, Memory.byteAt? t.v a = none) ∧ t.script = rest ∧ t.replies = s.replies ∧ t.resets = s.resets + 1

/-- The state after reset has `V` in its canonical form (log 18). -/
def Obligations.ResetBufferIsCanonical : Prop := State.reset.Inv

/-- Every step keeps the canonical form of `V`: rising offsets, all inside the 32 bytes (R21, log 18). -/
def Obligations.EveryStepKeepsBufferCanonical : Prop :=
  ∀ s t : State, s.Inv → step s = .next t → t.Inv

/-- R60: a write of `CMD` with a legal byte stores the byte and runs the command it decodes to, in the same step. -/
def Obligations.StepRunsTheDecodedCommand : Prop :=
  ∀ (s : State) (c : Byte) (i : Instr) (rest : List HostStep), s.script = .command c :: rest →
    decode c = .instr i → step s = exec i { s with cmd := c, script := rest }

/-- R65, R155: a byte outside the legal words is stored in `CMD`, sets `COND` to `IllegalCommand` and changes
nothing else. -/
def Obligations.IllegalByteRaisesIllegalCommand : Prop :=
  ∀ (s : State) (c : Byte) (rest : List HostStep), s.script = .command c :: rest →
    legalFields (c.toNat / 64) (c.toNat / 16 % 4) (c.toNat % 16) = false →
    step s = .next { s with cmd := c, script := rest, cond := .illegalCommand }

/-- R64: the decoder accepts exactly the bytes of the rule's last sentence; there are 38 of them. -/
def Obligations.DecoderAcceptsExactlyTheLegalWords : Prop :=
  (∀ c : Byte, (∃ i, decode c = .instr i) ↔
    legalFields (c.toNat / 64) (c.toNat / 16 % 4) (c.toNat % 16) = true) ∧
  ((List.range 256).filter fun k => legalFields (k / 64) (k / 16 % 4) (k % 16)).length = 38

/-- Decoding a command's word gives the command back, for every well-formed command. -/
def Obligations.DecodeOfEncodeIsTheCommand : Prop :=
  ∀ i : Instr, i.wellFormed = true → decode (encode i) = .instr i

/-- A byte that decodes to a command is that command's word: each command has one word. -/
def Obligations.EncodeOfDecodeIsTheWord : Prop :=
  ∀ (c : Byte) (i : Instr), decode c = .instr i → encode i = c

/-- Words written out from the table of R64, one or more of each family. -/
def Obligations.WrittenOutWordsDecode : Prop :=
  decode 0b00100000#8 = .instr .cmpmagW32 ∧ decode 0b00100001#8 = .instr .msbW32 ∧
  decode 0b00000010#8 = .instr .addW8 ∧ decode 0b00010011#8 = .instr .negW16 ∧
  decode 0b00100100#8 = .instr .subW32 ∧ decode 0b00000101#8 = .instr .mulW8 ∧
  decode 0b00010110#8 = .instr .divW16 ∧ decode 0b00100111#8 = .instr .fxencW32 ∧
  decode 0b00001000#8 = .instr .fxdecW8 ∧ decode 0b00011001#8 = .instr .fxdivW16 ∧
  decode 0b00101010#8 = .instr .fdecF32 ∧ decode 0b00011011#8 = .instr .fasmF16 ∧
  decode 0b00101100#8 = .instr .faddF32 ∧ decode 0b00011101#8 = .instr .fsubF16 ∧
  decode 0b00101110#8 = .instr .fmulF32 ∧ decode 0b00011111#8 = .instr .fdivF16 ∧
  decode 0b00110110#8 = .illegal .selReserved ∧ decode 0b01000010#8 = .illegal .zeroFieldSet ∧
  decode 0b00001010#8 = .illegal .widthNotOffered

/-- R80: `CMPMAG.W32` delivers 0, 1 or 2 as the first natural equals, exceeds or is below the second. -/
def Obligations.CmpmagDeliversUnsignedOrder : Prop :=
  decode 0x20#8 = .instr .cmpmagW32 ∧
  DeliversBinary .cmpmagW32 4 fun x y => if x = y then 0 else if y < x then 1 else 2

/-- R81: `MSB.W32` delivers the highest power of two in the word, or zero; slot `B` plays no part. -/
def Obligations.MsbDeliversHighestSetBit : Prop :=
  decode 0x21#8 = .instr .msbW32 ∧
  ∀ s : State, ∃ t, exec .msbW32 s = .next t ∧
    Delivers s t [(8, 4, if s.memRead 0 4 = 0 then 0 else 2 ^ (s.memRead 0 4).log2)]

/-- R91, R57: `ADD` delivers the sum modulo `2^N`. -/
def Obligations.AddDeliversWrappingSum : Prop :=
  (decode 0x02#8 = .instr .addW8 ∧ decode 0x12#8 = .instr .addW16 ∧ decode 0x22#8 = .instr .addW32) ∧
  AddsAt .addW8 1 ∧ AddsAt .addW16 2 ∧ AddsAt .addW32 4

/-- R92, R57: `NEG` delivers the two's-complement negation modulo `2^N`. -/
def Obligations.NegDeliversWrappingNegation : Prop :=
  (decode 0x03#8 = .instr .negW8 ∧ decode 0x13#8 = .instr .negW16 ∧ decode 0x23#8 = .instr .negW32) ∧
  NegatesAt .negW8 1 ∧ NegatesAt .negW16 2 ∧ NegatesAt .negW32 4

/-- R93, R57: `SUB` delivers first operand minus second, modulo `2^N`. -/
def Obligations.SubDeliversWrappingDifference : Prop :=
  (decode 0x04#8 = .instr .subW8 ∧ decode 0x14#8 = .instr .subW16 ∧ decode 0x24#8 = .instr .subW32) ∧
  SubtractsAt .subW8 1 ∧ SubtractsAt .subW16 2 ∧ SubtractsAt .subW32 4

/-- R94, R57: `MUL` delivers the product modulo `2^N`. -/
def Obligations.MulDeliversLowProduct : Prop :=
  (decode 0x05#8 = .instr .mulW8 ∧ decode 0x15#8 = .instr .mulW16 ∧ decode 0x25#8 = .instr .mulW32) ∧
  MultipliesAt .mulW8 1 ∧ MultipliesAt .mulW16 2 ∧ MultipliesAt .mulW32 4

/-- R95, R57: `DIV` with a divisor that is not zero delivers the truncating quotient and the remainder. -/
def Obligations.DivDeliversTruncatedQuotientAndRemainder : Prop :=
  (decode 0x06#8 = .instr .divW8 ∧ decode 0x16#8 = .instr .divW16 ∧ decode 0x26#8 = .instr .divW32) ∧
  DividesAt .divW8 1 ∧ DividesAt .divW16 2 ∧ DividesAt .divW32 4

/-- R151: `DIV` with a zero divisor of the command's width raises `DivideByZero` and writes nothing else. -/
def Obligations.DivByZeroRaisesDivideByZero : Prop :=
  RaisesOnZeroDivisor .divW8 1 .divideByZero ∧ RaisesOnZeroDivisor .divW16 2 .divideByZero ∧
  RaisesOnZeroDivisor .divW32 4 .divideByZero

/-- R97 (conflict C2): quotient and remainder rebuild the dividend; the remainder is zero or has the dividend's sign,
and its magnitude is below the divisor's. With a zero divisor the function has no value (U8, log 14). -/
def Obligations.DivideWordRebuildsTheDividend : Prop :=
  (∀ a b : Word, b ≠ 0#32 → ∃ q r, divideWord a b = some (q, r) ∧ a = addWord (multiplyWord q b) r ∧
    (r = 0#32 ∨ r.getLsbD 31 = a.getLsbD 31) ∧ compareMagnitude (magnitude r) (magnitude b) = .less) ∧
  ∀ a : Word, divideWord a 0#32 = none

/-- R110: `FXENC` of a finite value delivers the low bytes of the nearest integer to the exact product; the choice
at an exact half is the open parameter (log 5); the 64-bit layout is presumed (log 11). -/
def Obligations.FxencDeliversNearestScaledInteger : Prop :=
  (decode 0x07#8 = .instr .fxencW8 ∧ decode 0x17#8 = .instr .fxencW16 ∧ decode 0x27#8 = .instr .fxencW32) ∧
  EncodesAt .fxencW8 1 4 ∧ EncodesAt .fxencW16 2 8 ∧ EncodesAt .fxencW32 4 16

/-- R110, R154: `FXENC` of an infinity or a not-a-number raises `InvalidOperand` and writes nothing else. Which
patterns these are is presumed (log 11). -/
def Obligations.FxencOfNonFiniteRaisesInvalidOperand : Prop :=
  RaisesOnNonFinite .fxencW8 ∧ RaisesOnNonFinite .fxencW16 ∧ RaisesOnNonFinite .fxencW32

/-- R111: `FXDEC` delivers the pattern of exactly the word over the scale, in the presumed layout (log 11). -/
def Obligations.FxdecDeliversExactRational : Prop :=
  (decode 0x08#8 = .instr .fxdecW8 ∧ decode 0x18#8 = .instr .fxdecW16 ∧ decode 0x28#8 = .instr .fxdecW32) ∧
  DecodesAt .fxdecW8 1 4 ∧ DecodesAt .fxdecW16 2 8 ∧ DecodesAt .fxdecW32 4 16

/-- R110, R111: encoding what was decoded gives the word back, whatever the tie rule is (log 5), in the presumed layout
(log 11). Property Q5 is the other composition, `FxdecOfFxencIsTheRational`. -/
def Obligations.FxencOfFxdecIsTheWord : Prop :=
  EncodeInverts .fxencW8 .fxdecW8 1 ∧ EncodeInverts .fxencW16 .fxdecW16 2 ∧ EncodeInverts .fxencW32 .fxdecW32 4

/-- R153: `FXDIV` with a zero divisor raises `DegenerateDivisor` and writes nothing else. -/
def Obligations.FxdivByZeroRaisesDegenerateDivisor : Prop :=
  RaisesOnZeroDivisor .fxdivW8 1 .degenerateDivisor ∧ RaisesOnZeroDivisor .fxdivW16 2 .degenerateDivisor ∧
  RaisesOnZeroDivisor .fxdivW32 4 .degenerateDivisor

/-- R114 (property Q12): `FXDIV` at 8 and 16 bits delivers the truncated scaled quotient for every divisor that is
not zero. -/
def Obligations.FxdivNarrowDeliversTruncatedQuotient : Prop :=
  (∀ s : State, s.memRead 4 1 ≠ 0 → ∃ t, exec .fxdivW8 s = .next t ∧
    Delivers s t [(8, 1, scaledQuotient 1 4 (s.memRead 0 1) (s.memRead 4 1))]) ∧
  (∀ s : State, s.memRead 4 2 ≠ 0 → ∃ t, exec .fxdivW16 s = .next t ∧
    Delivers s t [(8, 2, scaledQuotient 2 8 (s.memRead 0 2) (s.memRead 4 2))])

/-- R114: `FXDIV.W32` on the sound domain delivers the truncated scaled quotient. -/
def Obligations.FxdivWideDeliversTruncatedQuotientOnSoundDomain : Prop :=
  ∀ s : State, (signedOf 4 (s.memRead 0 4)).natAbs < 2 ^ 31 →
    1 ≤ (signedOf 4 (s.memRead 4 4)).natAbs → (signedOf 4 (s.memRead 4 4)).natAbs ≤ 2 ^ 30 →
    (signedOf 4 (s.memRead 0 4)).natAbs * 2 ^ 16 / (signedOf 4 (s.memRead 4 4)).natAbs < 2 ^ 31 →
    ∃ t, exec .fxdivW32 s = .next t ∧
      Delivers s t [(8, 4, scaledQuotient 4 16 (s.memRead 0 4) (s.memRead 4 4))]

/-- R112, R115: `FXDIV.W32` returns a result for every divisor that is not zero; outside the sound domain it need
not be the quotient: -32768.0 over 1.0 gives 0, and 1.0 over `0x7FFFFFFF` gives `0x7FFFFFFE`. -/
def Obligations.FxdivWideReturnsForEveryDivisor : Prop :=
  decode 0x29#8 = .instr .fxdivW32 ∧
  ∀ s : State, s.memRead 4 4 ≠ 0 → ∃ t v, exec .fxdivW32 s = .next t ∧ Delivers s t [(8, 4, v)] ∧
    (s.memRead 0 4 = 0x80000000 → s.memRead 4 4 = 0x00010000 → v = 0x00000000) ∧
    (s.memRead 0 4 = 0x00010000 → s.memRead 4 4 = 0x7FFFFFFF → v = 0x7FFFFFFE)

/-- R126: `FDEC` delivers the biased exponent and the signed mantissa as container words. -/
def Obligations.FdecDeliversExponentAndSignedMantissa : Prop :=
  (decode 0x1A#8 = .instr .fdecF16 ∧ decode 0x2A#8 = .instr .fdecF32) ∧
  DecomposesAt .fdecF16 2 10 ∧ DecomposesAt .fdecF32 4 23

/-- R127: `FASM` delivers the normalised pattern, the all-zero pattern for a zero mantissa, with no clamping. The
all-zero pattern is presumed (log 12). -/
def Obligations.FasmDeliversNormalisedPattern : Prop :=
  (decode 0x1B#8 = .instr .fasmF16 ∧ decode 0x2B#8 = .instr .fasmF32) ∧
  ReassemblesAt .fasmF16 2 10 ∧ ReassemblesAt .fasmF32 4 23

/-- R127 (property Q6): reassembling what was decomposed gives every pattern of the format back. -/
def Obligations.FasmOfFdecIsThePattern : Prop :=
  ReassembleInverts .fasmF16 .fdecF16 2 ∧ ReassembleInverts .fasmF32 .fdecF32 4

/-- R130, R131: `FADD` adds the signed mantissas at the larger exponent; a zero sum gives zero (log 12). -/
def Obligations.FaddDeliversAlignedSum : Prop :=
  (decode 0x1C#8 = .instr .faddF16 ∧ decode 0x2C#8 = .instr .faddF32) ∧
  CombinesAligned .faddF16 2 10 (fun a b => a + b) ∧ CombinesAligned .faddF32 4 23 (fun a b => a + b)

/-- R131 (property Q7): `FADD` is commutative on all operand pairs. -/
def Obligations.FaddIsCommutative : Prop := Commutes .faddF16 2 ∧ Commutes .faddF32 4

/-- R130, R132: `FSUB` subtracts the signed mantissas at the larger exponent; a zero difference gives zero (log 12). -/
def Obligations.FsubDeliversAlignedDifference : Prop :=
  (decode 0x1D#8 = .instr .fsubF16 ∧ decode 0x2D#8 = .instr .fsubF32) ∧
  CombinesAligned .fsubF16 2 10 (fun a b => a - b) ∧ CombinesAligned .fsubF32 4 23 (fun a b => a - b)

/-- R133: `FMUL` shifts the container's product of the mantissas; at 16 bits that is the exact floor. A zero mantissa
gives zero (log 12). -/
def Obligations.FmulDeliversShiftedContainerProduct : Prop :=
  (decode 0x1E#8 = .instr .fmulF16 ∧ decode 0x2E#8 = .instr .fmulF32) ∧
  MultipliesFloats .fmulF16 2 10 15 ∧ MultipliesFloats .fmulF32 4 23 127 ∧
  DeliversBinary .fmulF16 2 fun x y =>
    assembled 2 10 ((exponentOf 2 10 x : Int) + exponentOf 2 10 y - 15)
      (mantissaOf 2 10 x * mantissaOf 2 10 y / 2 ^ 10)

/-- R134 (property Q10): `FDIV` returns the truncated mantissa quotient on every operand pair and never raises. -/
def Obligations.FdivDeliversTruncatedQuotientAndNeverRaises : Prop :=
  (decode 0x1F#8 = .instr .fdivF16 ∧ decode 0x2F#8 = .instr .fdivF32) ∧
  DividesFloats .fdivF16 2 10 15 ∧ DividesFloats .fdivF32 4 23 127

/-- R30: a command changes no byte of `V` outside its result slots, and no state but `V` and `COND`. -/
def Obligations.CommandWritesOnlyItsResultSlots : Prop :=
  ∀ (i : Instr) (s t : State), exec i s = .next t →
    t = { s with v := t.v, cond := t.cond } ∧
    ∀ a, ¬ inRanges (resultRanges i) a → Memory.byteAt? t.v a = Memory.byteAt? s.v a

/-- R20, R30: two states that agree on the bytes a command reads, and on nothing else, get the same condition and the
same result bytes from it. -/
def Obligations.ResultDependsOnlyOnOperandBytes : Prop :=
  ∀ (i : Instr) (s u t t' : State), (∀ a, inRanges (operandRanges i) a → u.byteAt a = s.byteAt a) →
    exec i s = .next t → exec i u = .next t' →
    t'.cond = t.cond ∧ (t.cond = .none → ∀ a, inRanges (resultRanges i) a → t'.byteAt a = t.byteAt a)

/-- R150, R159: each command leaves `COND` at 0 or at the one condition the table names for it. -/
def Obligations.CommandRaisesOnlyItsOwnCondition : Prop :=
  ∀ (i : Instr) (s t : State), exec i s = .next t → t.cond ∈ possibleConditions i

/-- R157: a write of `CMD` that ends in a condition, an illegal byte or a legal command's, leaves the byte in `CMD`
and the condition in `COND`, and changes nothing else: no byte of `V` is written. -/
def Obligations.FailingCommandChangesOnlyCond : Prop :=
  (∀ (c : Byte) (s t : State), hostCommand c s = .next t → t.cond ≠ .none → t = { s with cmd := c, cond := t.cond }) ∧
  ∀ (i : Instr) (s t : State), exec i s = .next t → t.cond ≠ .none → t = { s with cond := t.cond }

/-- R23, R158: what `COND` held before a command makes no difference to anything the command leaves. -/
def Obligations.ConditionIsNotSticky : Prop :=
  ∀ (i : Instr) (s : State) (c : Condition), exec i { s with cond := c } = exec i s

/-- R60, R176: every write of `CMD`, legal or not, completes in one step, takes just that step off the script, and
leaves the byte in `CMD`. -/
def Obligations.EveryCommandByteCompletes : Prop :=
  ∀ (s : State) (c : Byte) (rest : List HostStep), s.script = .command c :: rest →
    ∃ t, step s = .next t ∧ t.cmd = c ∧ t.script = rest ∧ t.replies = s.replies ∧ t.resets = s.resets

/-- R22: reading `CMD` after a command returns the byte that was written. -/
def Obligations.CmdReadsBackTheWrittenByte : Prop :=
  ∀ (s : State) (c : Byte) (rest : List HostStep), s.script = .command c :: .readCommand :: rest →
    ∃ t t', step s = .next t ∧ step t = .next t' ∧ t'.replies = s.replies ++ [.command c] ∧ t'.script = rest

/-- R23, R150: `HostStatus` returns the condition's code in bits 2 to 0 and zero in bits 7 to 3, and changes nothing
but the list of replies. -/
def Obligations.StatusReturnsTheConditionCode : Prop :=
  ∀ (s : State) (rest : List HostStep), s.script = .readStatus :: rest →
    step s = .next { s with script := rest,
                            replies := s.replies ++ [.status (BitVec.ofNat 8 (conditionNumber s.cond))] }

/-- R41, R45, R48: `HostSet` stores the low `n` bytes of the value, lowest first, and changes no other byte and no
register. -/
def Obligations.HostSetStoresLittleEndianBytes : Prop :=
  ∀ (s : State) (off n v : Nat) (rest : List HostStep), s.script = .set off n v :: rest → HostCanAccess off n →
    ∃ t, step s = .next t ∧ t = { s with script := rest, v := t.v } ∧
      (∀ i, i < n → Memory.byteAt? t.v (off + i) = some (BitVec.ofNat 8 (v / 256 ^ i % 256))) ∧
      ∀ a, a < off ∨ off + n ≤ a → Memory.byteAt? t.v a = Memory.byteAt? s.v a

/-- R41, R45, R48: `HostGet` returns the little-endian value of the bytes and changes nothing but the list of
replies. Where a byte is unwritten its value is free (log 1). -/
def Obligations.HostGetReturnsLittleEndianValue : Prop :=
  ∀ (s : State) (off n : Nat) (rest : List HostStep), s.script = .get off n :: rest → HostCanAccess off n →
    step s = .next { s with script := rest,
                            replies := s.replies ++
                              [.value (((List.range n).map fun i => (s.byteAt (off + i)).toNat * 256 ^ i).sum)] }

/-- R52: a `HostGet` right after a `HostSet` of the same bytes returns the value's low bytes. -/
def Obligations.HostGetSeesTheLatestHostSet : Prop :=
  ∀ (s : State) (off n v : Nat) (rest : List HostStep), s.script = .set off n v :: .get off n :: rest →
    HostCanAccess off n →
    ∃ t t', step s = .next t ∧ step t = .next t' ∧ t'.replies = s.replies ++ [.value (v % 256 ^ n)] ∧
      t'.script = rest

/-- R45, U3, U4: the model stops on an access to bytes or with a width the block does not have, and on a write of
`STATUS` (log 6, log 7). -/
def Obligations.ForbiddenHostAccessStops : Prop :=
  (∀ (s : State) (off n v : Nat) (rest : List HostStep), s.script = .set off n v :: rest →
    n = 1 ∨ n = 2 ∨ n = 4 ∨ n = 8 → 32 < off + n → step s = .fault (.noSuchByte off n)) ∧
  (∀ (s : State) (off n : Nat) (rest : List HostStep), s.script = .get off n :: rest →
    n = 1 ∨ n = 2 ∨ n = 4 ∨ n = 8 → 32 < off + n → step s = .fault (.noSuchByte off n)) ∧
  (∀ (s : State) (off n v : Nat) (rest : List HostStep), s.script = .set off n v :: rest →
    ¬ (n = 1 ∨ n = 2 ∨ n = 4 ∨ n = 8) → step s = .refused (.noSuchWidth n)) ∧
  (∀ (s : State) (off n : Nat) (rest : List HostStep), s.script = .get off n :: rest →
    ¬ (n = 1 ∨ n = 2 ∨ n = 4 ∨ n = 8) → step s = .refused (.noSuchWidth n)) ∧
  ∀ (s : State) (v : Byte) (rest : List HostStep), s.script = .writeStatus v :: rest →
    step s = .refused .statusReadOnly

/-- R178: with no host step left the block is idle. That this is a step which changes nothing is the model's choice
(log 3). -/
def Obligations.IdleBlockStaysAsItIs : Prop := ∀ s : State, s.script = [] → step s = .next s

/-- R176, R178: a run of host steps the model gives a meaning is never stuck, however long. The model's choices are in
it: past the script's end the steps are idle ones, which are no host steps of the spec (log 3), and a read of an
unwritten byte of `V`, by a command or by `HostGet`, counts as given a meaning with a free value (log 1), where the spec
also lets a model refuse it (U1, U2). -/
def Obligations.WellFormedScriptNeverStops : Prop :=
  ∀ (s : State) (k : Nat), s.scriptWellFormed → ∃ t, Host.Core.run Sys2Proof.core k s = .next t

/-- The step lemma behind `WellFormedScriptNeverStops`, and an invariant every step keeps: with a well-formed script the
next step, an idle one past the script's end (log 3) among them, answers a next state whose script is well formed again.
A read of an unwritten byte counts as given a meaning (log 1). -/
def Obligations.StepKeepsWellFormedScriptAndNeverStops : Prop :=
  ∀ s : State, s.scriptWellFormed → ∃ t, step s = .next t ∧ t.scriptWellFormed

/-- The state after reset has a well-formed script: the empty one (log 3). -/
def Obligations.ResetScriptIsWellFormed : Prop := State.reset.scriptWellFormed

/-- R111 (property Q5): decoding what was encoded gives the rational back, for every rational with `sf` fractional bits
inside the range of R109, whatever the tie rule is (log 5), in the presumed layout (log 11). -/
def Obligations.FxdecOfFxencIsTheRational : Prop :=
  DecodeInverts .fxencW8 .fxdecW8 1 4 ∧ DecodeInverts .fxencW16 .fxdecW16 2 8 ∧ DecodeInverts .fxencW32 .fxdecW32 4 16
end

