-- ==== Sys2Proof/Laws/Word.lean ====
section
/-! SUPPORT. One lemma per word function of the scanner and the integer engine: the value its loop computes
(R80, R81, R91 to R96). -/

namespace Sys2Proof.Machine

theorem nat_add_eq_xor_add_two_mul_and (a b : Nat) : a + b = (a ^^^ b) + 2 * (a &&& b) := by
  induction a using Nat.strongRecOn generalizing b with
  | _ a ih =>
    by_cases h : a = 0
    · subst h; simp
    · have h1 := ih (a / 2) (by omega) (b / 2)
      rw [← Nat.xor_div_two, ← Nat.and_div_two] at h1
      have h2 := @Nat.xor_mod_two_eq a b
      have h3 := @Nat.and_mod_two_eq_one a b
      omega

theorem word_add_eq_xor_add_carries (a b : Word) : (a ^^^ b) + shl (a &&& b) 1 = a + b := by
  have key := nat_add_eq_xor_add_two_mul_and a.toNat b.toNat
  apply BitVec.eq_of_toNat_eq
  simp [shl, BitVec.toNat_shiftLeft, Nat.shiftLeft_eq]
  omega

theorem addLoop_eq_add (k : Nat) (a b : Word) (h : ∀ i, i + k < 32 → b.getLsbD i = false) :
    addLoop k a b = a + b := by
  induction k generalizing a b with
  | zero =>
    have hb : b = 0#32 := BitVec.eq_of_getLsbD_eq fun i hi => by simpa using h i hi
    simp [addLoop, hb]
  | succ k ih =>
    unfold addLoop
    split
    · simp_all
    · rw [ih, word_add_eq_xor_add_carries]
      intro i hi
      rcases Nat.eq_zero_or_pos i with h0 | h0
      · simp [shl, h0]
      · simp [shl, h (i - 1) (by omega)]

/-- `addWord` is the sum modulo `2^32` (R91). -/
theorem addWord_eq_add (a b : Word) : addWord a b = a + b := addLoop_eq_add 32 a b (by omega)

/-- `negateWord` is the two's-complement negation (R92). -/
theorem negateWord_eq_neg (a : Word) : negateWord a = -a := by
  rw [negateWord, addWord_eq_add, BitVec.neg_eq_not_add]

/-- `subtractWord` is the difference modulo `2^32` (R93). -/
theorem subtractWord_eq_sub (a b : Word) : subtractWord a b = a - b := by
  rw [subtractWord, addWord_eq_add, negateWord_eq_neg, BitVec.sub_eq_add_neg]


theorem single_bit_ne_zero (j : Nat) (hj : j < 32) : shl 0x00000001#32 j ≠ 0#32 := by
  intro h
  have := congrArg (fun x => x.getLsbD j) h
  simp [shl, hj] at this
theorem and_single_bit_eq (a : Word) (j : Nat) (hj : j < 32) :
    a &&& shl 0x00000001#32 j = if a.getLsbD j then shl 0x00000001#32 j else 0#32 := by
  apply BitVec.eq_of_getLsbD_eq
  intro i hi
  by_cases hij : i = j
  · subst hij
    rw [BitVec.getLsbD_eq_getElem hi]
    cases h : a[i] <;> simp [shl, h, hi]
  · split <;> simp [shl] <;> intros <;> omega

theorem and_single_bit_ne_zero (a : Word) (j : Nat) (hj : j < 32) :
    a &&& shl 0x00000001#32 j ≠ 0#32 ↔ a.getLsbD j = true := by
  rw [and_single_bit_eq a j hj]
  split <;> simp_all [single_bit_ne_zero]

theorem lsr_single_bit (j : Nat) (hj : j + 1 < 32) : lsr (shl 0x00000001#32 (j + 1)) 1 = shl 0x00000001#32 j := by
  apply BitVec.eq_of_toNat_eq
  have h1 : 2 ^ (j + 1) < 2 ^ 32 := Nat.pow_lt_pow_right (by omega) hj
  have h2 : 2 ^ j < 2 ^ 32 := Nat.pow_lt_pow_right (by omega) (by omega)
  simp only [shl, lsr, BitVec.toNat_ushiftRight, BitVec.toNat_shiftLeft, BitVec.toNat_ofNat, Nat.shiftLeft_eq,
    Nat.shiftRight_eq_div_pow]
  rw [show 1 % 2 ^ 32 = 1 from rfl, Nat.one_mul, Nat.one_mul, Nat.mod_eq_of_lt h1, Nat.mod_eq_of_lt h2]
  omega

theorem compareScan_eq (k : Nat) (hk : k < 32) (a b : Word) (h : ∀ i, k < i → a.getLsbD i = b.getLsbD i) :
    compareScan (k + 1) (shl 0x00000001#32 k) a b =
      if a.toNat = b.toNat then .equal else if b.toNat < a.toNat then .greater else .less := by
  rw [compareScan, if_neg (single_bit_ne_zero k hk)]
  simp only [and_single_bit_ne_zero a k hk]
  by_cases hd : a.getLsbD k = b.getLsbD k
  · have : a &&& shl 0x00000001#32 k = b &&& shl 0x00000001#32 k := by
      rw [and_single_bit_eq a k hk, and_single_bit_eq b k hk, hd]
    rw [if_neg (not_not.mpr this)]
    have h' : ∀ i, k ≤ i → a.getLsbD i = b.getLsbD i := fun i hi => by
      rcases Nat.lt_or_eq_of_le hi with h1 | h1
      · exact h i h1
      · rw [← h1]; exact hd
    cases k with
    | zero =>
      have : a = b := BitVec.eq_of_getLsbD_eq fun i _ => h' i (Nat.zero_le i)
      simp [compareScan, this]
    | succ k =>
      rw [lsr_single_bit k hk]
      exact compareScan_eq k (by omega) a b fun i hi => h' i (by omega)
  · have hne : a &&& shl 0x00000001#32 k ≠ b &&& shl 0x00000001#32 k := by
      intro he
      apply hd
      rw [Bool.eq_iff_iff, ← and_single_bit_ne_zero a k hk, ← and_single_bit_ne_zero b k hk, he]
    rw [if_pos hne]
    cases ha : a.getLsbD k with
    | true =>
      have hb : b.getLsbD k = false := by cases hb : b.getLsbD k <;> simp_all
      have : b.toNat < a.toNat := Nat.lt_of_testBit k hb ha fun j hj => (h j hj).symm
      rw [if_pos rfl, if_neg (by omega), if_pos this]
    | false =>
      have hb : b.getLsbD k = true := by cases hb : b.getLsbD k <;> simp_all
      have : a.toNat < b.toNat := Nat.lt_of_testBit k ha hb fun j hj => h j hj
      rw [if_neg (by simp), if_neg (by omega), if_neg (by omega)]

/-- `compareMagnitude` compares the two words as natural numbers (R80). -/
theorem compareMagnitude_eq (a b : Word) :
    compareMagnitude a b = if a.toNat = b.toNat then .equal else if b.toNat < a.toNat then .greater else .less :=
  compareScan_eq 31 (by omega) a b fun i hi => by
    rw [BitVec.getLsbD_of_ge _ _ (by omega), BitVec.getLsbD_of_ge _ _ (by omega)]

theorem compareMagnitude_less_iff (a b : Word) : compareMagnitude a b = .less ↔ a.toNat < b.toNat := by
  rw [compareMagnitude_eq]; split_ifs <;> simp <;> omega

theorem compareMagnitude_greater_iff (a b : Word) : compareMagnitude a b = .greater ↔ b.toNat < a.toNat := by
  rw [compareMagnitude_eq]; split_ifs <;> simp <;> omega

theorem compareMagnitude_equal_iff (a b : Word) : compareMagnitude a b = .equal ↔ a.toNat = b.toNat := by
  rw [compareMagnitude_eq]; split_ifs <;> simp <;> omega

theorem msbScan_eq (k : Nat) (hk : k < 32) (a : Word) (h : ∀ i, k < i → a.getLsbD i = false) :
    msbScan (k + 1) (shl 0x00000001#32 k) a = if a = 0#32 then 0#32 else shl 0x00000001#32 (a.toNat).log2 := by
  rw [msbScan, if_neg (single_bit_ne_zero k hk)]
  simp only [and_single_bit_ne_zero a k hk]
  cases ha : a.getLsbD k with
  | true =>
    have hne : a ≠ 0#32 := by rintro rfl; simp at ha
    have h0 : a.toNat ≠ 0 := fun h0 => hne (BitVec.eq_of_toNat_eq (by simpa using h0))
    have hlog : (a.toNat).log2 = k := by
      rw [Nat.log2_eq_iff h0]
      refine ⟨Nat.ge_two_pow_of_testBit ha, Nat.lt_pow_two_of_testBit _ fun i hi => h i (by omega)⟩
    rw [if_pos rfl, if_neg hne, hlog]
  | false =>
    rw [if_neg (by simp)]
    have h' : ∀ i, k ≤ i → a.getLsbD i = false := fun i hi => by
      rcases Nat.lt_or_eq_of_le hi with h1 | h1
      · exact h i h1
      · rw [← h1]; exact ha
    cases k with
    | zero =>
      have : a = 0#32 := BitVec.eq_of_getLsbD_eq fun i _ => by rw [h' i (Nat.zero_le i)]; simp
      simp [msbScan, this]
    | succ k =>
      rw [lsr_single_bit k hk]
      exact msbScan_eq k (by omega) a fun i hi => h' i (by omega)

/-- `mostSignificantSetBit` is the mask of the highest set bit, or zero (R81). -/
theorem mostSignificantSetBit_eq (a : Word) :
    mostSignificantSetBit a = if a = 0#32 then 0#32 else shl 0x00000001#32 (a.toNat).log2 :=
  msbScan_eq 31 (by omega) a fun i hi => BitVec.getLsbD_of_ge _ _ (by omega)

theorem shl_toNat_of_lt (v : Word) (k : Nat) (h : v.toNat * 2 ^ k < 2 ^ 32) : (shl v k).toNat = v.toNat * 2 ^ k := by
  simp only [shl, BitVec.toNat_shiftLeft, Nat.shiftLeft_eq]
  exact Nat.mod_eq_of_lt h

/-- The test of the inner search of R96 compares on unbounded naturals. -/
theorem shiftSearch_test_iff (mb r : Word) (s : Nat) :
    (lsr (shl mb s) s = mb ∧ compareMagnitude (shl mb s) r ≠ .greater) ↔ mb.toNat * 2 ^ s ≤ r.toNat := by
  have hr := r.isLt
  rw [Ne, compareMagnitude_greater_iff]
  constructor
  · rintro ⟨h1, h2⟩
    have h3 : mb.toNat * 2 ^ s < 2 ^ 32 := by
      have h4 := congrArg BitVec.toNat h1
      simp only [lsr, shl, BitVec.toNat_ushiftRight, BitVec.toNat_shiftLeft, Nat.shiftRight_eq_div_pow, Nat.shiftLeft_eq] at h4
      have h5 := Nat.div_mul_le_self (mb.toNat * 2 ^ s % 2 ^ 32) (2 ^ s)
      rw [h4] at h5
      have := Nat.mod_lt (mb.toNat * 2 ^ s) (show 2 ^ 32 > 0 by norm_num)
      exact lt_of_le_of_lt h5 this
    rw [shl_toNat_of_lt mb s h3] at h2
    omega
  · intro h
    have h3 : mb.toNat * 2 ^ s < 2 ^ 32 := by omega
    refine ⟨BitVec.eq_of_toNat_eq ?_, by rw [shl_toNat_of_lt mb s h3]; omega⟩
    have := shl_toNat_of_lt mb s h3
    simp only [lsr, BitVec.toNat_ushiftRight, Nat.shiftRight_eq_div_pow]
    rw [this]
    exact Nat.mul_div_cancel _ (by positivity)

/-- The inner search of R96 finds the largest shift whose shifted divisor does not pass the remainder. -/
theorem shiftSearch_spec (k : Nat) (mb r : Word) (s : Nat) (hk : k + s = 31) (hmb : 0 < mb.toNat)
    (hs : mb.toNat * 2 ^ s ≤ r.toNat) :
    mb.toNat * 2 ^ shiftSearch k mb r s ≤ r.toNat ∧ r.toNat < mb.toNat * 2 ^ (shiftSearch k mb r s + 1) := by
  induction k generalizing s with
  | zero =>
    have : s = 31 := by omega
    subst this
    have hr := r.isLt
    refine ⟨hs, ?_⟩
    simp only [shiftSearch]
    have : 2 ^ 32 ≤ mb.toNat * 2 ^ 32 := Nat.le_mul_of_pos_left _ hmb
    omega
  | succ k ih =>
    rw [shiftSearch]
    simp only [shiftSearch_test_iff]
    split
    · next h => exact ih (s + 1) (by omega) h
    · next h => exact ⟨hs, by omega⟩

theorem divideLoop_eq (k : Nat) (q r mb : Word) (hmb : 0 < mb.toNat) (h : r.toNat < mb.toNat * 2 ^ k) :
    divideLoop k q r mb = (q + r / mb, r % mb) := by
  induction k generalizing q r with
  | zero =>
    have hr : r.toNat < mb.toNat := by simpa using h
    have h1 : r / mb = 0#32 := BitVec.eq_of_toNat_eq (by simp [Nat.div_eq_of_lt hr])
    have h2 : r % mb = r := BitVec.eq_of_toNat_eq (by simp [Nat.mod_eq_of_lt hr])
    simp [divideLoop, h1, h2]
  | succ k ih =>
    rw [divideLoop]
    simp only [ne_eq, compareMagnitude_less_iff]
    split
    · next hge =>
      obtain ⟨hs1, hs2⟩ := shiftSearch_spec 31 mb r 0 rfl hmb (by omega)
      generalize shiftSearch 31 mb r 0 = s at hs1 hs2
      have hr := r.isLt
      have hsk : s ≤ k := by
        by_contra hc
        have : mb.toNat * 2 ^ (k + 1) ≤ mb.toNat * 2 ^ s :=
          Nat.mul_le_mul_left _ (Nat.pow_le_pow_right (by omega) (by omega))
        omega
      have e1 : (subtractWord r (shl mb s)).toNat = r.toNat - mb.toNat * 2 ^ s := by
        rw [subtractWord_eq_sub, ← shl_toNat_of_lt mb s (by omega)]
        exact BitVec.toNat_sub_of_le (by rw [BitVec.le_def]; have := shl_toNat_of_lt mb s (by omega); omega)
      have e2 : mb.toNat * 2 ^ s ≤ mb.toNat * 2 ^ k :=
          Nat.mul_le_mul_left _ (Nat.pow_le_pow_right (by omega) hsk)
      have e3 : r.toNat = (r.toNat - mb.toNat * 2 ^ s) + mb.toNat * 2 ^ s := by omega
      rw [ih _ _ (by rw [e1]; rw [Nat.pow_succ, ← Nat.mul_assoc] at hs2; omega), addWord_eq_add]
      have hp : 2 ^ s < 2 ^ 32 := lt_of_le_of_lt (Nat.le_mul_of_pos_left _ hmb) (lt_of_le_of_lt hs1 hr)
      have e4 : (shl 0x00000001#32 s).toNat = 2 ^ s := by
        rw [shl_toNat_of_lt _ _ (by simpa using hp)]; simp
      refine Prod.ext (BitVec.eq_of_toNat_eq ?_) (BitVec.eq_of_toNat_eq ?_)
      · have e5 : r.toNat / mb.toNat = (r.toNat - mb.toNat * 2 ^ s) / mb.toNat + 2 ^ s := by
          conv_lhs => rw [e3]
          exact Nat.add_mul_div_left _ _ hmb
        simp only [BitVec.toNat_add, BitVec.toNat_udiv]
        rw [show (subtractWord r (shl mb s)).toNat = r.toNat - mb.toNat * 2 ^ s from e1,
          show (shl 0x00000001#32 s).toNat = 2 ^ s from e4, show r.toNat / mb.toNat = _ from e5]
        omega
      · simp only [BitVec.toNat_umod]
        rw [show (subtractWord r (shl mb s)).toNat = r.toNat - mb.toNat * 2 ^ s from e1]
        conv_rhs => rw [show r.toNat = _ from e3]
        exact (Nat.add_mul_mod_self_left _ _ _).symm
    · next hlt =>
      have hr : r.toNat < mb.toNat := by omega
      have h1 : r / mb = 0#32 := BitVec.eq_of_toNat_eq (by simp [Nat.div_eq_of_lt hr])
      have h2 : r % mb = r := BitVec.eq_of_toNat_eq (by simp [Nat.mod_eq_of_lt hr])
      simp [h1, h2]

/-- `divideMagnitude` is the natural quotient and remainder (R96). -/
theorem divideMagnitude_eq (ma mb : Word) (h : mb ≠ 0#32) : divideMagnitude ma mb = (ma / mb, ma % mb) := by
  have hmb : 0 < mb.toNat := by
    rcases Nat.eq_zero_or_pos (mb.toNat) with h0 | h0
    · exact absurd (BitVec.eq_of_toNat_eq (by simpa using h0)) h
    · exact h0
  rw [divideMagnitude, divideLoop_eq 32 0#32 ma mb hmb]
  · simp
  · have := ma.isLt
    have : 2 ^ 32 ≤ mb.toNat * 2 ^ 32 := Nat.le_mul_of_pos_left _ hmb
    omega

theorem high_part_eq (a : Word) (j : Nat) (hj : j < 32) :
    shl (lsr a j) j = (if a.getLsbD j then shl 1#32 j else 0#32) + shl (lsr a (j + 1)) (j + 1) := by
  rw [BitVec.add_eq_or_of_and_eq_zero]
  · apply BitVec.eq_of_getLsbD_eq
    intro i hi
    by_cases hij : i = j
    · subst hij
      rw [BitVec.getLsbD_eq_getElem hj]
      cases h : a[i] <;> simp [shl, lsr, h, hj]
    · by_cases hlt : i < j
      · split <;> simp [shl, lsr, hi, hlt] <;> omega
      · have e1 : j + (i - j) = i := by omega
        have e2 : (j+1) + (i - (j+1)) = i := by omega
        have e3 : i - j ≠ 0 := by omega
        have e4 : j < i := by omega
        split <;> simp [shl, lsr, hi, hlt, e1, e2, e3, e4]
  · apply BitVec.eq_of_getLsbD_eq
    intro i hi
    split <;> simp [shl, lsr]
    intros
    omega

theorem shl_one_eq_mul (b : Word) (j : Nat) : shl b j = shl 1#32 j * b := by
  apply BitVec.eq_of_toNat_eq
  simp [shl, Nat.shiftLeft_eq]
  rw [Nat.mul_comm]

theorem shl_shl_one (b : Word) (j : Nat) : shl (shl b j) 1 = shl b (j + 1) := by
  simp [shl, BitVec.shiftLeft_add]

theorem mulLoop_eq (k : Nat) (hk : k ≤ 32) (acc a b : Word) :
    mulLoop k acc (shl 1#32 (32 - k)) a (shl b (32 - k)) = acc + shl (lsr a (32 - k)) (32 - k) * b := by
  induction k generalizing acc with
  | zero => simp [mulLoop, shl, lsr]
  | succ k ih =>
    have hj : 32 - (k + 1) < 32 := by omega
    have e : 32 - (k + 1) + 1 = 32 - k := by omega
    rw [mulLoop, if_neg (single_bit_ne_zero _ hj), shl_shl_one, shl_shl_one, e, ih (by omega),
      high_part_eq a _ hj, e]
    simp only [and_single_bit_ne_zero a _ hj]
    split
    · rw [addWord_eq_add, shl_one_eq_mul b, BitVec.add_mul, BitVec.add_assoc]
    · simp

/-- `multiplyWord` is the product modulo `2^32` (R94). -/
theorem multiplyWord_eq_mul (a b : Word) : multiplyWord a b = a * b := by
  have := mulLoop_eq 32 (by omega) 0#32 a b
  simpa [multiplyWord, shl, lsr] using this

/-- `divideWord` is the truncating quotient and the remainder of the signed readings (R95). -/
theorem divideWord_eq (a b : Word) :
    divideWord a b = if b = 0#32 then none else some (a.sdiv b, a.srem b) := by
  unfold divideWord
  split
  · rfl
  · next hb =>
    have hm : magnitude b ≠ 0#32 := by
      unfold magnitude
      split
      · rw [negateWord_eq_neg]; simpa using hb
      · exact hb
    rw [divideMagnitude_eq _ _ hm]
    simp only [magnitude, signBit, negateWord_eq_neg, BitVec.sdiv, BitVec.srem]
    cases a.msb <;> cases b.msb <;> simp [BitVec.udiv_eq, BitVec.umod_eq]

theorem magnitude_ne_zero (v : Word) (h : v ≠ 0#32) : magnitude v ≠ 0#32 := by
  unfold magnitude
  split
  · rw [negateWord_eq_neg]; simpa using h
  · exact h

/-- A magnitude is the absolute value of the signed reading (R97). -/
theorem magnitude_toNat (v : Word) : (magnitude v).toNat = v.toInt.natAbs := by
  have h := v.isLt
  unfold magnitude signBit
  split
  · next hm =>
    rw [negateWord_eq_neg, BitVec.toInt_eq_msb_cond, if_pos hm, BitVec.toNat_neg]
    have := BitVec.le_toNat_of_msb_true hm
    omega
  · next hm =>
    rw [BitVec.toInt_eq_msb_cond, if_neg hm]
    simp

end Sys2Proof.Machine
end

