-- ==== Sys2Proof/Laws/FixedPoint.lean ====
section
/-! SUPPORT. What the fixed-point long divider computes: it has a value exactly when the divisor is not zero (R112,
R153), and on the sound domain of R114 that value is the truncated scaled quotient. -/

namespace Sys2Proof.Machine

theorem toNat_ne_zero {v : Word} (h : v ≠ 0#32) : 0 < v.toNat := by
  rcases Nat.eq_zero_or_pos v.toNat with h0 | h0
  · exact absurd (BitVec.eq_of_toNat_eq (by simpa using h0)) h
  · exact h0

/-- The inner loop has a value for every divisor magnitude that is not zero. -/
theorem fixedLoop_isSome (f : Nat) (rem mb acc : Word) (h : mb ≠ 0#32) : (fixedLoop f rem mb acc).isSome = true := by
  induction f generalizing rem acc with
  | zero => rfl
  | succ f ih =>
    rw [fixedLoop, divideWord_eq, if_neg h]
    split
    · rfl
    · exact ih _ _

/-- `divideFixedPoint` raises `DegenerateDivisor` exactly on a zero divisor word (R112, R153). -/
theorem divideFixedPoint_eq_none_iff (a b : Word) (sf : Nat) : divideFixedPoint a b sf = none ↔ b = 0#32 := by
  unfold divideFixedPoint
  split
  · simp [*]
  · next hb =>
    have := fixedLoop_isSome (sf + 1) (magnitude a) (magnitude b) 0#32 (magnitude_ne_zero b hb)
    split
    · next he => rw [he] at this; simp at this
    · simp [hb]

/-- On words below `2^31` the signed divider is the natural one. -/
theorem divideWord_of_small (a b : Word) (ha : a.toNat < 2 ^ 31) (hb : b.toNat < 2 ^ 31) (h0 : b ≠ 0#32) :
    divideWord a b = some (a / b, a % b) := by
  have h1 : a.msb = false := by rw [BitVec.msb_eq_false_iff_two_mul_lt]; omega
  have h2 : b.msb = false := by rw [BitVec.msb_eq_false_iff_two_mul_lt]; omega
  rw [divideWord_eq, if_neg h0, BitVec.sdiv, BitVec.srem, h1, h2]
  rfl

/-- A digit ORed in below a multiple of a higher power of two is added (D14). -/
theorem or_digit_toNat (acc q : Word) (p m : Nat) (hm : 2 ^ m ∣ acc.toNat) (hq : q.toNat * 2 ^ p < 2 ^ m)
    (hw : q.toNat * 2 ^ p < 2 ^ 32) : (acc ||| shl q p).toNat = acc.toNat + q.toNat * 2 ^ p := by
  obtain ⟨c, hc⟩ := hm
  rw [BitVec.toNat_or, shl_toNat_of_lt q p hw, hc]
  exact (Nat.two_pow_add_eq_or_of_lt hq c).symm

/-- The passes after the first: every digit is 0 or 1 (R114). -/
theorem fixedLoop_digits (f : Nat) (rem mb acc : Word) (hf : f < 32) (hmb : mb ≠ 0#32) (hb : mb.toNat ≤ 2 ^ 30)
    (hr : rem.toNat < 2 * mb.toNat) (hacc : 2 ^ (f + 1) ∣ acc.toNat) :
    ∃ res, fixedLoop f rem mb acc = some res ∧
      res.toNat = acc.toNat + 2 * (rem.toNat * 2 ^ f / (2 * mb.toNat)) := by
  induction f generalizing rem acc with
  | zero =>
    refine ⟨acc, rfl, ?_⟩
    rw [Nat.pow_zero, Nat.mul_one, Nat.div_eq_of_lt hr, Nat.mul_zero, Nat.add_zero]
  | succ f ih =>
    have hpos := toNat_ne_zero hmb
    rw [fixedLoop]
    split
    · next h0 => exact ⟨acc, rfl, by simp [h0]⟩
    · rw [divideWord_of_small rem mb (by omega) (by omega) hmb]
      dsimp only
      have hq : (rem / mb).toNat = rem.toNat / mb.toNat := BitVec.toNat_udiv
      have hm : (rem % mb).toNat = rem.toNat % mb.toNat := BitVec.toNat_umod
      have hlt := Nat.mod_lt rem.toNat hpos
      have hq1 : rem.toNat / mb.toNat < 2 := Nat.div_lt_of_lt_mul (by omega)
      have hp1 : 2 ^ (f + 1) < 2 ^ 32 := Nat.pow_lt_pow_right (by omega) hf
      have hdig : (rem / mb).toNat * 2 ^ (f + 1) < 2 ^ (f + 1 + 1) := by
        rw [hq, Nat.pow_succ 2 (f + 1), Nat.mul_comm]
        exact Nat.mul_lt_mul_of_pos_left hq1 (by positivity)
      have hdig32 : (rem / mb).toNat * 2 ^ (f + 1) < 2 ^ 32 := by
        refine lt_of_le_of_lt (Nat.mul_le_mul_right _ (show (rem / mb).toNat ≤ 1 by omega)) (by omega)
      have hor := or_digit_toNat acc (rem / mb) (f + 1) (f + 1 + 1) hacc hdig hdig32
      have hsh : (shl (rem % mb) 1).toNat = rem.toNat % mb.toNat * 2 := by
        rw [shl_toNat_of_lt _ _ (by rw [hm]; omega), hm, Nat.pow_one]
      obtain ⟨res, h1, h2⟩ := ih (shl (rem % mb) 1) (acc ||| shl (rem / mb) (f + 1)) (by omega)
        (by rw [hsh]; omega)
        (by
          rw [hor]
          exact Nat.dvd_add (Nat.dvd_trans (Nat.pow_dvd_pow 2 (by omega)) hacc) (Nat.dvd_mul_left _ _))
      refine ⟨res, h1, ?_⟩
      rw [h2, hor, hsh, hq]
      have e1 : rem.toNat % mb.toNat * 2 * 2 ^ f / (2 * mb.toNat) = rem.toNat % mb.toNat * 2 ^ f / mb.toNat := by
        rw [show rem.toNat % mb.toNat * 2 * 2 ^ f = 2 * (rem.toNat % mb.toNat * 2 ^ f) by ring]
        exact Nat.mul_div_mul_left _ _ (by omega)
      have e2 : rem.toNat * 2 ^ (f + 1) / (2 * mb.toNat) =
          rem.toNat / mb.toNat * 2 ^ f + rem.toNat % mb.toNat * 2 ^ f / mb.toNat := by
        rw [show rem.toNat * 2 ^ (f + 1) = 2 * (rem.toNat * 2 ^ f) by ring, Nat.mul_div_mul_left _ _ (by omega)]
        conv_lhs => rw [← Nat.div_add_mod rem.toNat mb.toNat]
        rw [show (mb.toNat * (rem.toNat / mb.toNat) + rem.toNat % mb.toNat) * 2 ^ f =
          rem.toNat % mb.toNat * 2 ^ f + mb.toNat * (rem.toNat / mb.toNat * 2 ^ f) by ring,
          Nat.add_mul_div_left _ _ hpos, Nat.add_comm]
      rw [e1, e2]
      ring

/-- The loop of R112 on the sound domain of R114: twice the truncated scaled quotient. -/
theorem fixedLoop_sound (sf : Nat) (ma mb : Word) (hsf : sf < 32) (hmb : mb ≠ 0#32) (ha : ma.toNat < 2 ^ 31)
    (hb : mb.toNat ≤ 2 ^ 30) (hQ : ma.toNat * 2 ^ sf / mb.toNat < 2 ^ 31) :
    ∃ acc, fixedLoop (sf + 1) ma mb 0#32 = some acc ∧ acc.toNat = 2 * (ma.toNat * 2 ^ sf / mb.toNat) := by
  have hpos := toNat_ne_zero hmb
  rw [fixedLoop]
  split
  · next h0 => exact ⟨0#32, rfl, by simp [h0]⟩
  · rw [divideWord_of_small ma mb ha (by omega) hmb]
    dsimp only
    have hq : (ma / mb).toNat = ma.toNat / mb.toNat := BitVec.toNat_udiv
    have hm : (ma % mb).toNat = ma.toNat % mb.toNat := BitVec.toNat_umod
    have hlt := Nat.mod_lt ma.toNat hpos
    have eQ : ma.toNat * 2 ^ sf / mb.toNat =
        ma.toNat / mb.toNat * 2 ^ sf + ma.toNat % mb.toNat * 2 ^ sf / mb.toNat := by
      conv_lhs => rw [← Nat.div_add_mod ma.toNat mb.toNat]
      rw [show (mb.toNat * (ma.toNat / mb.toNat) + ma.toNat % mb.toNat) * 2 ^ sf =
        ma.toNat % mb.toNat * 2 ^ sf + mb.toNat * (ma.toNat / mb.toNat * 2 ^ sf) by ring,
        Nat.add_mul_div_left _ _ hpos, Nat.add_comm]
    have hw : (ma / mb).toNat * 2 ^ (sf + 1) < 2 ^ 32 := by
      rw [hq, Nat.pow_succ, ← Nat.mul_assoc]
      rw [eQ] at hQ
      have := Nat.le_add_right (ma.toNat / mb.toNat * 2 ^ sf) (ma.toNat % mb.toNat * 2 ^ sf / mb.toNat)
      omega
    have hacc : (0#32 ||| shl (ma / mb) (sf + 1) : Word).toNat = ma.toNat / mb.toNat * 2 ^ (sf + 1) := by
      rw [BitVec.zero_or, shl_toNat_of_lt _ _ hw, hq]
    have hsh : (shl (ma % mb) 1).toNat = ma.toNat % mb.toNat * 2 := by
      rw [shl_toNat_of_lt _ _ (by rw [hm]; omega), hm, Nat.pow_one]
    obtain ⟨res, h1, h2⟩ := fixedLoop_digits sf (shl (ma % mb) 1) mb (0#32 ||| shl (ma / mb) (sf + 1)) hsf hmb hb
      (by rw [hsh]; omega) (by rw [hacc]; exact Nat.dvd_mul_left _ _)
    refine ⟨res, h1, ?_⟩
    rw [h2, hacc, hsh, eQ]
    have e1 : ma.toNat % mb.toNat * 2 * 2 ^ sf / (2 * mb.toNat) = ma.toNat % mb.toNat * 2 ^ sf / mb.toNat := by
      rw [show ma.toNat % mb.toNat * 2 * 2 ^ sf = 2 * (ma.toNat % mb.toNat * 2 ^ sf) by ring]
      exact Nat.mul_div_mul_left _ _ (by omega)
    rw [e1]
    ring

/-- The truncated quotient by magnitudes and signs (R95). -/
theorem truncated_scaled_quotient (x y : Int) (sf : Nat) : (x * 2 ^ sf).tdiv y =
    if xor (decide (x < 0)) (decide (y < 0)) then -((x.natAbs * 2 ^ sf / y.natAbs : Nat) : Int)
    else ((x.natAbs * 2 ^ sf / y.natAbs : Nat) : Int) := by
  have hp : ((2 ^ sf : Nat) : Int) = 2 ^ sf := by push_cast; rfl
  rw [← hp]
  obtain ⟨X, rfl | rfl⟩ := Int.eq_nat_or_neg x <;> obtain ⟨Y, rfl | rfl⟩ := Int.eq_nat_or_neg y <;>
    rcases Nat.eq_zero_or_pos X with rfl | hX <;> rcases Nat.eq_zero_or_pos Y with rfl | hY <;>
    simp only [Int.natAbs_neg, Int.natAbs_natCast, Int.neg_mul, Int.tdiv_neg, Int.neg_tdiv, ← Int.natCast_mul,
      ← Int.ofNat_tdiv, Int.neg_neg] <;> simp <;> omega

/-- R114: on its sound domain `divideFixedPoint` is the scaled quotient truncated toward zero. -/
theorem divideFixedPoint_sound (a b : Word) (sf : Nat) (hsf : sf < 32) (hb0 : b ≠ 0#32) (ha : a.toInt.natAbs < 2 ^ 31)
    (hb : b.toInt.natAbs ≤ 2 ^ 30) (hQ : a.toInt.natAbs * 2 ^ sf / b.toInt.natAbs < 2 ^ 31) :
    divideFixedPoint a b sf = some (word ((a.toInt * 2 ^ sf).tdiv b.toInt)) := by
  have hm := magnitude_ne_zero b hb0
  rw [← magnitude_toNat] at ha hb
  rw [← magnitude_toNat, ← magnitude_toNat] at hQ
  obtain ⟨acc, h1, h2⟩ := fixedLoop_sound sf (magnitude a) (magnitude b) hsf hm ha hb hQ
  have hl : lsr acc 1 = word ((magnitude a).toNat * 2 ^ sf / (magnitude b).toNat : Nat) := by
    apply BitVec.eq_of_toNat_eq
    rw [lsr, BitVec.toNat_ushiftRight, h2, word, BitVec.ofInt_natCast, BitVec.toNat_ofNat, Nat.shiftRight_eq_div_pow]
    rw [Nat.mod_eq_of_lt (by omega)]
    omega
  rw [divideFixedPoint, if_neg hb0, h1]
  dsimp only
  rw [hl, negateWord_eq_neg, truncated_scaled_quotient, signBit, signBit, BitVec.msb_eq_toInt, BitVec.msb_eq_toInt,
    ← magnitude_toNat, ← magnitude_toNat]
  split
  · rw [word, word, BitVec.ofInt_neg]
  · rfl

end Sys2Proof.Machine
end

