-- ==== Sys2Proof/Laws/FloatUnit.lean ====
section
/-! SUPPORT. What the functions of the float unit compute, on integers: `decompose`, the two normalising loops,
`reassemble`, `align`, and the product and quotient of two mantissas (R126, R127, R130, R133, R134). -/

namespace Sys2Proof.Machine

/-- A format descriptor with `n` bytes and `mw` mantissa bits (R125). -/
structure HasLayout (F : FloatFormat) (n mw : Nat) : Prop where
  bytes_eq : F.bytes = n
  bytes_pos : 0 < n
  bytes_le : n ≤ 4
  width_eq : F.mantissaWidth = mw
  width_pos : 0 < mw
  width_lt : mw < 8 * n - 1
  width_le : mw ≤ 23
  sign_eq : F.signBitMask = shl 0x00000001#32 (8 * n - 1)
  mantissa_eq : F.mantissaMask.toNat = 2 ^ mw - 1
  implicit_eq : F.implicitBitMask.toNat = 2 ^ mw
  exponent_eq : (lsr F.exponentMask mw).toNat = 2 ^ (8 * n - 1 - mw) - 1
  zero_eq : F.zeroExponentEncoding = 0#32

theorem f16_hasLayout : HasLayout f16 2 10 := by constructor <;> decide

theorem f32_hasLayout : HasLayout f32 4 23 := by constructor <;> decide

theorem log2_lt_32 (a : Word) : a.toNat.log2 < 32 := by
  by_cases h : a.toNat = 0
  · simp [h]
  · exact (Nat.log2_lt h).mpr a.isLt

theorem mostSignificantSetBit_toNat (a : Word) (h : a ≠ 0#32) : (mostSignificantSetBit a).toNat = 2 ^ a.toNat.log2 := by
  rw [mostSignificantSetBit_eq, if_neg h, shl_toNat_of_lt]
  · simp
  · simpa using Nat.pow_lt_pow_right (show 1 < 2 by omega) (log2_lt_32 a)

theorem log2_half (n : Nat) (h : 2 ≤ n) : (n / 2).log2 + 1 = n.log2 := by
  rw [Nat.log2_def n, if_pos h]

theorem ne_zero_of_toNat_pos {a : Word} (h : 0 < a.toNat) : a ≠ 0#32 := by
  rintro rfl
  simp at h

/-- The right loop of `reassemble` drops every place above the implicit bit and counts it into the exponent (R127). -/
theorem normalizeRight_eq {F : FloatFormat} {mw : Nat} (hF : F.implicitBitMask.toNat = 2 ^ mw) (k : Nat) (e mag : Word)
    (h : mag ≠ 0#32) (hk : mag.toNat.log2 ≤ mw + k) :
    normalizeRight k F e mag = (e + BitVec.ofNat 32 (mag.toNat.log2 - mw), lsr mag (mag.toNat.log2 - mw)) := by
  induction k generalizing e mag with
  | zero =>
    rw [normalizeRight, show mag.toNat.log2 - mw = 0 by omega]
    simp [lsr]
  | succ k ih =>
    rw [normalizeRight]
    have hpos := toNat_ne_zero h
    have hiff : compareMagnitude (mostSignificantSetBit mag) F.implicitBitMask = .greater ↔ mw < mag.toNat.log2 := by
      rw [compareMagnitude_greater_iff, mostSignificantSetBit_toNat _ h, hF]
      exact Nat.pow_lt_pow_iff_right (by omega)
    by_cases hc : mw < mag.toNat.log2
    · rw [if_pos (hiff.mpr hc)]
      have h2 : 2 ≤ mag.toNat := by
        by_contra hn
        rw [show mag.toNat = 1 by omega, show Nat.log2 1 = 0 by decide] at hc
        omega
      have hhalf : (lsr mag 1).toNat = mag.toNat / 2 := by simp [lsr, BitVec.toNat_ushiftRight, Nat.shiftRight_eq_div_pow]
      have hlog := log2_half mag.toNat h2
      rw [ih _ _ (ne_zero_of_toNat_pos (by rw [hhalf]; omega)) (by rw [hhalf]; omega), hhalf, addWord_eq_add]
      have e1 : mag.toNat.log2 - mw = (mag.toNat / 2).log2 - mw + 1 := by omega
      rw [e1]
      congr 1
      · rw [BitVec.ofNat_add, BitVec.add_assoc, BitVec.add_comm 1#32]
      · simp only [lsr, ← BitVec.shiftRight_add]
        rw [Nat.add_comm]
    · rw [if_neg (fun hg => hc (hiff.mp hg)), show mag.toNat.log2 - mw = 0 by omega]
      simp [lsr]

/-- The left loop of `reassemble` raises the highest set bit to the implicit bit and counts the places out of the
exponent (R127). -/
theorem normalizeLeft_eq {F : FloatFormat} {mw : Nat} (hF : F.implicitBitMask.toNat = 2 ^ mw) (hmw : mw ≤ 23) (k : Nat)
    (e mag : Word) (h : mag ≠ 0#32) (hk : mw ≤ mag.toNat.log2 + k) :
    normalizeLeft k F e mag = (e - BitVec.ofNat 32 (mw - mag.toNat.log2), shl mag (mw - mag.toNat.log2)) := by
  induction k generalizing e mag with
  | zero =>
    rw [normalizeLeft, show mw - mag.toNat.log2 = 0 by omega]
    simp [shl]
  | succ k ih =>
    rw [normalizeLeft]
    have hpos := toNat_ne_zero h
    have hiff : compareMagnitude (mostSignificantSetBit mag) F.implicitBitMask = .less ↔ mag.toNat.log2 < mw := by
      rw [compareMagnitude_less_iff, mostSignificantSetBit_toNat _ h, hF]
      exact Nat.pow_lt_pow_iff_right (by omega)
    by_cases hc : mag.toNat.log2 < mw
    · rw [if_pos (hiff.mpr hc)]
      have hlt : mag.toNat < 2 ^ 23 := by
        have := (Nat.log2_lt (by omega)).mp hc
        exact lt_of_lt_of_le this (Nat.pow_le_pow_right (by omega) hmw)
      have hdbl : (shl mag 1).toNat = 2 * mag.toNat := by
        rw [shl_toNat_of_lt _ _ (by omega)]
        omega
      have hlog := Nat.log2_two_mul (n := mag.toNat) (by omega)
      rw [ih _ _ (ne_zero_of_toNat_pos (by rw [hdbl]; omega)) (by rw [hdbl]; omega), hdbl, subtractWord_eq_sub]
      have e1 : mw - mag.toNat.log2 = mw - (2 * mag.toNat).log2 + 1 := by omega
      rw [e1]
      congr 1
      · rw [BitVec.ofNat_add, BitVec.sub_sub, BitVec.add_comm 1#32]
      · simp only [shl, ← BitVec.shiftLeft_add]
        rw [Nat.add_comm]
    · rw [if_neg (fun hl => hc (hiff.mp hl)), show mw - mag.toNat.log2 = 0 by omega]
      simp [shl]

theorem lsr_toNat (v : Word) (k : Nat) : (lsr v k).toNat = v.toNat / 2 ^ k := by
  simp [lsr, BitVec.toNat_ushiftRight, Nat.shiftRight_eq_div_pow]

/-- After the right loop the highest set bit is at the implicit bit or below it. -/
theorem log2_lsr (mag : Word) (mw : Nat) (h : mag ≠ 0#32) :
    (lsr mag (mag.toNat.log2 - mw)).toNat.log2 = min mag.toNat.log2 mw := by
  have hpos := toNat_ne_zero h
  have hge := Nat.log2_self_le (n := mag.toNat) (by omega)
  have hlt := Nat.lt_log2_self (n := mag.toNat)
  have hp : 0 < 2 ^ (mag.toNat.log2 - mw) := Nat.two_pow_pos _
  have h1 : 2 ^ min mag.toNat.log2 mw ≤ mag.toNat / 2 ^ (mag.toNat.log2 - mw) := by
    rw [Nat.le_div_iff_mul_le hp, ← Nat.pow_add,
      show min mag.toNat.log2 mw + (mag.toNat.log2 - mw) = mag.toNat.log2 by omega]
    exact hge
  have h2 : mag.toNat / 2 ^ (mag.toNat.log2 - mw) < 2 ^ (min mag.toNat.log2 mw + 1) := by
    rw [Nat.div_lt_iff_lt_mul hp, ← Nat.pow_add,
      show min mag.toNat.log2 mw + 1 + (mag.toNat.log2 - mw) = mag.toNat.log2 + 1 by omega]
    exact hlt
  rw [lsr_toNat]
  exact (Nat.log2_eq_iff (by have := Nat.two_pow_pos (min mag.toNat.log2 mw); omega)).mpr ⟨h1, h2⟩

/-- The magnitude at the implicit bit, as `assembled` writes it. -/
theorem normalised_toNat (mag : Word) (mw : Nat) (hmw : mw ≤ 23) :
    (shl (lsr mag (mag.toNat.log2 - mw)) (mw - min mag.toNat.log2 mw)).toNat =
      if mw ≤ mag.toNat.log2 then mag.toNat / 2 ^ (mag.toNat.log2 - mw) else mag.toNat * 2 ^ (mw - mag.toNat.log2) := by
  have hlt := Nat.lt_log2_self (n := mag.toNat)
  split
  · next hc => rw [show mw - min mag.toNat.log2 mw = 0 by omega, shl, BitVec.shiftLeft_zero, lsr_toNat]
  · next hc =>
    rw [show mag.toNat.log2 - mw = 0 by omega, show lsr mag 0 = mag by simp [lsr],
      show min mag.toNat.log2 mw = mag.toNat.log2 by omega, shl_toNat_of_lt]
    calc mag.toNat * 2 ^ (mw - mag.toNat.log2) < 2 ^ (mag.toNat.log2 + 1) * 2 ^ (mw - mag.toNat.log2) :=
          Nat.mul_lt_mul_of_pos_right hlt (Nat.two_pow_pos _)
      _ = 2 ^ (mw + 1) := by rw [← Nat.pow_add]; congr 1; omega
      _ ≤ 2 ^ 32 := Nat.pow_le_pow_right (by omega) (by omega)

theorem word_toNat (k : Int) : (word k).toNat = lowBytes 4 k := by
  rw [word, BitVec.toNat_ofInt, lowBytes]
  rfl

/-- `reassemble` delivers the pattern `assembled` describes, for every exponent that is the word's modulo `2^32`
(R127). -/
theorem reassemble_toNat {F : FloatFormat} {n mw : Nat} (hF : HasLayout F n mw) (e m : Word) (E : Int)
    (hE : e = word E) : (reassemble F e m).toNat % 256 ^ n = assembled n mw E m.toInt := by
  have h256 : 256 ^ n = 2 ^ (8 * n) := by rw [show (256 : Nat) = 2 ^ 8 from rfl, ← Nat.pow_mul]
  unfold reassemble assembled
  split
  · next h0 => simp [h0, hF.zero_eq, shl]
  · next h0 =>
    have hm0 : m.toInt ≠ 0 := fun h => h0 (BitVec.eq_of_toInt_eq (by simpa using h))
    have hmag := magnitude_ne_zero m h0
    have hlog := log2_lt_32 (magnitude m)
    have hpos := toNat_ne_zero hmag
    rw [if_neg hm0]
    dsimp only
    rw [normalizeRight_eq hF.implicit_eq 32 e _ hmag (by omega)]
    dsimp only
    have hl0 : lsr (magnitude m) ((magnitude m).toNat.log2 - mw) ≠ 0#32 := by
      apply ne_zero_of_toNat_pos
      have hge := Nat.log2_self_le (n := (magnitude m).toNat) (by omega)
      rw [lsr, BitVec.toNat_ushiftRight, Nat.shiftRight_eq_div_pow]
      refine Nat.div_pos (le_trans (Nat.pow_le_pow_right (by omega) (by omega)) hge) (Nat.two_pow_pos _)
    rw [normalizeLeft_eq hF.implicit_eq hF.width_le 32 _ _ hl0 (by have := hF.width_le; omega)]
    have hexp : e + BitVec.ofNat 32 ((magnitude m).toNat.log2 - mw) -
        BitVec.ofNat 32 (mw - min (magnitude m).toNat.log2 mw) = word (E + (magnitude m).toNat.log2 - mw) := by
      rw [hE, word, word, ← BitVec.ofInt_natCast, ← BitVec.ofInt_natCast, ← BitVec.ofInt_add, BitVec.sub_eq_add_neg, ← BitVec.ofInt_neg, ← BitVec.ofInt_add]
      congr 1
      omega
    have hsign : (if signBit m = true then F.signBitMask else 0x00000000#32).toNat =
        if m.toInt < 0 then 2 ^ (8 * n - 1) else 0 := by
      have h1 : (2 : Nat) ^ (8 * n - 1) < 2 ^ 32 :=
        Nat.pow_lt_pow_right (by omega) (by have := hF.bytes_le; have := hF.bytes_pos; omega)
      rw [signBit, BitVec.msb_eq_toInt, hF.sign_eq]
      by_cases hn : m.toInt < 0
      · simp only [hn, decide_true, if_true]
        rw [shl_toNat_of_lt _ _ (by simpa using h1)]
        simp
      · simp [hn]
    dsimp only
    rw [log2_lsr _ mw hmag, hexp, BitVec.toNat_or, BitVec.toNat_or, hsign, BitVec.toNat_and, hF.mantissa_eq,
      Nat.and_two_pow_sub_one_eq_mod, normalised_toNat _ _ hF.width_le, hF.width_eq, shl, BitVec.toNat_shiftLeft,
      Nat.shiftLeft_eq, word_toNat, magnitude_toNat]

theorem toInt_word (k : Int) (h1 : -2 ^ 31 ≤ k) (h2 : k < 2 ^ 31) : (word k).toInt = k :=
  BitVec.toInt_ofInt_eq_self (by decide) h1 h2

theorem exponentOf_lt (n mw x : Nat) : exponentOf n mw x < 2 ^ (8 * n - 1 - mw) := Nat.mod_lt _ (Nat.two_pow_pos _)

/-- The magnitude of every mantissa has its highest bit at the implicit bit (R126). -/
theorem mantissaOf_natAbs (n mw x : Nat) : (mantissaOf n mw x).natAbs = x % 2 ^ mw + 2 ^ mw := by
  unfold mantissaOf
  split
  · rw [Int.one_mul, Int.natAbs_natCast]
  · rw [Int.neg_one_mul, Int.natAbs_neg, Int.natAbs_natCast]

theorem mantissaOf_bounds (n mw x : Nat) (hmw : mw ≤ 23) : (mantissaOf n mw x).natAbs < 2 ^ 24 := by
  rw [mantissaOf_natAbs]
  have h1 := Nat.mod_lt x (Nat.two_pow_pos mw)
  have h2 : 2 ^ mw ≤ 2 ^ 23 := Nat.pow_le_pow_right (by omega) hmw
  omega

theorem mantissaOf_neg_iff (n mw x : Nat) : mantissaOf n mw x < 0 ↔ x / 2 ^ (8 * n - 1) % 2 = 1 := by
  have h := Nat.two_pow_pos mw
  unfold mantissaOf
  split <;> omega

/-- `decompose` reads the exponent field and the signed mantissa (R126). -/
theorem decompose_eq {F : FloatFormat} {n mw : Nat} (hF : HasLayout F n mw) (bits : Word) :
    decompose F bits = (BitVec.ofNat 32 (exponentOf n mw bits.toNat), word (mantissaOf n mw bits.toNat)) := by
  have hw := hF.width_eq
  have hle := hF.width_le
  have hb := hF.bytes_le
  have hb0 := hF.bytes_pos
  have hexp : lsr (bits &&& F.exponentMask) F.mantissaWidth = BitVec.ofNat 32 (exponentOf n mw bits.toNat) := by
    apply BitVec.eq_of_toNat_eq
    have he := hF.exponent_eq
    rw [lsr] at he
    rw [lsr, hw, BitVec.ushiftRight_and_distrib, BitVec.toNat_and, he, Nat.and_two_pow_sub_one_eq_mod,
      BitVec.toNat_ushiftRight, Nat.shiftRight_eq_div_pow, BitVec.toNat_ofNat, exponentOf, Nat.mod_eq_of_lt (a := _ % _)]
    exact lt_of_lt_of_le (Nat.mod_lt _ (Nat.two_pow_pos _)) (Nat.pow_le_pow_right (by omega) (by omega))
  have hmant : ((bits &&& F.mantissaMask) ||| F.implicitBitMask).toNat = bits.toNat % 2 ^ mw + 2 ^ mw := by
    rw [BitVec.toNat_or, BitVec.toNat_and, hF.mantissa_eq, hF.implicit_eq, Nat.and_two_pow_sub_one_eq_mod, Nat.or_comm]
    have := Nat.two_pow_add_eq_or_of_lt (Nat.mod_lt bits.toNat (Nat.two_pow_pos mw)) 1
    rw [Nat.mul_one] at this
    omega
  have hsign : bits &&& F.signBitMask ≠ 0#32 ↔ bits.toNat / 2 ^ (8 * n - 1) % 2 = 1 := by
    rw [hF.sign_eq, and_single_bit_ne_zero _ _ (by omega), BitVec.getLsbD, Nat.testBit_eq_decide_div_mod_eq,
      decide_eq_true_iff]
  have hword : (bits &&& F.mantissaMask) ||| F.implicitBitMask = word ((bits.toNat % 2 ^ mw + 2 ^ mw : Nat) : Int) := by
    rw [word, BitVec.ofInt_natCast, ← hmant, BitVec.ofNat_toNat, BitVec.setWidth_eq]
  unfold decompose
  dsimp only
  rw [hexp, negateWord_eq_neg, hword]
  congr 1
  unfold mantissaOf
  by_cases hs : bits.toNat / 2 ^ (8 * n - 1) % 2 = 1
  · rw [if_pos (hsign.mpr hs), if_neg (by omega), word, ← BitVec.ofInt_neg, Int.neg_one_mul]
  · rw [if_neg (fun h => hs (hsign.mp h)), if_pos (by omega), Int.one_mul]

/-- An aligned mantissa is a floor of a division by a power of two (R130, R136). -/
theorem asr_word (k : Int) (d : Nat) (h : k.natAbs < 2 ^ 31) : asr (word k) d = word (k / 2 ^ d) := by
  apply BitVec.eq_of_toInt_eq
  have hp : ((2 ^ d : Nat) : Int) = 2 ^ d := by push_cast; rfl
  have hpos : (1 : Int) ≤ 2 ^ d := by exact_mod_cast Nat.two_pow_pos d
  have h1 : -2 ^ 31 ≤ k / 2 ^ d := by
    rw [Int.le_ediv_iff_mul_le (by omega)]
    have : (-2147483648 : Int) ≤ k := by omega
    norm_num
    nlinarith
  have h2 : k / 2 ^ d < 2 ^ 31 := by
    rw [Int.ediv_lt_iff_lt_mul (by omega)]
    nlinarith [show k < 2 ^ 31 by omega]
  rw [asr, BitVec.toInt_sshiftRight, toInt_word k (by omega) (by omega), Int.shiftRight_eq_div_pow, hp,
    toInt_word _ h1 h2]

/-- `align` keeps the larger exponent and moves each mantissa to it (R130). -/
theorem align_eq (x y : Nat) (a b : Int) (hx : x < 2 ^ 32) (hy : y < 2 ^ 32) (ha : a.natAbs < 2 ^ 31)
    (hb : b.natAbs < 2 ^ 31) :
    align (BitVec.ofNat 32 x) (word a) (BitVec.ofNat 32 y) (word b) =
      (BitVec.ofNat 32 (max x y), word (alignedMantissa (max x y) x a), word (alignedMantissa (max x y) y b)) := by
  have hx' : (BitVec.ofNat 32 x).toNat = x := Nat.mod_eq_of_lt hx
  have hy' : (BitVec.ofNat 32 y).toNat = y := Nat.mod_eq_of_lt hy
  unfold align
  rw [compareMagnitude_eq, hx', hy']
  simp only [uns, subtractWord_eq_sub, BitVec.toNat_sub, hx', hy', alignedMantissa]
  split_ifs with h1 h2
  · subst h1; simp
  · have e : (2 ^ 32 - y + x) % 2 ^ 32 = x - y := by omega
    rw [e, asr_word b _ hb, show max x y = x by omega, Nat.sub_self]
    simp
  · have e : (2 ^ 32 - x + y) % 2 ^ 32 = y - x := by omega
    rw [e, asr_word a _ ha, show max x y = y by omega, Nat.sub_self]
    simp

theorem exponentOf_lt_word {F : FloatFormat} {n mw : Nat} (hF : HasLayout F n mw) (x : Nat) :
    exponentOf n mw x < 2 ^ 32 :=
  lt_of_lt_of_le (exponentOf_lt n mw x)
    (Nat.pow_le_pow_right (by omega) (by have := hF.bytes_le; omega))

theorem alignedMantissa_natAbs (e own : Nat) (m : Int) : (alignedMantissa e own m).natAbs ≤ m.natAbs := by
  have hpos : (1 : Int) ≤ 2 ^ (e - own) := by exact_mod_cast Nat.two_pow_pos (e - own)
  unfold alignedMantissa
  rcases lt_or_ge m 0 with h | h
  · have h1 : m ≤ m / 2 ^ (e - own) := by
      rw [Int.le_ediv_iff_mul_le (by omega)]
      nlinarith
    have h2 : m / 2 ^ (e - own) < 0 := Int.ediv_neg_of_neg_of_pos h (by omega)
    omega
  · have h1 := Int.ediv_le_self (2 ^ (e - own)) h
    have h2 : 0 ≤ m / 2 ^ (e - own) := Int.ediv_nonneg h (by omega)
    omega

/-- `FADD` (R131). -/
theorem floatAdd_toNat {F : FloatFormat} {n mw : Nat} (hF : HasLayout F n mw) (a b : Word) :
    (floatAdd F a b).toNat % 256 ^ n =
      assembled n mw (max (exponentOf n mw a.toNat) (exponentOf n mw b.toNat) : Nat)
        (alignedMantissa (max (exponentOf n mw a.toNat) (exponentOf n mw b.toNat)) (exponentOf n mw a.toNat)
          (mantissaOf n mw a.toNat) +
        alignedMantissa (max (exponentOf n mw a.toNat) (exponentOf n mw b.toNat)) (exponentOf n mw b.toNat)
          (mantissaOf n mw b.toNat)) := by
  have ha := mantissaOf_bounds n mw a.toNat hF.width_le
  have hb := mantissaOf_bounds n mw b.toNat hF.width_le
  unfold floatAdd
  rw [decompose_eq hF, decompose_eq hF]
  dsimp only
  rw [align_eq _ _ _ _ (exponentOf_lt_word hF _) (exponentOf_lt_word hF _) (by omega) (by omega)]
  dsimp only
  have h1 := alignedMantissa_natAbs (max (exponentOf n mw a.toNat) (exponentOf n mw b.toNat)) (exponentOf n mw a.toNat)
    (mantissaOf n mw a.toNat)
  have h2 := alignedMantissa_natAbs (max (exponentOf n mw a.toNat) (exponentOf n mw b.toNat)) (exponentOf n mw b.toNat)
    (mantissaOf n mw b.toNat)
  rw [reassemble_toNat hF _ _ _ (BitVec.ofInt_natCast 32 _).symm, addWord_eq_add, word, word, ← BitVec.ofInt_add,
    toInt_word _ (by omega) (by omega)]

/-- `FSUB` (R132). -/
theorem floatSubtract_toNat {F : FloatFormat} {n mw : Nat} (hF : HasLayout F n mw) (a b : Word) :
    (floatSubtract F a b).toNat % 256 ^ n =
      assembled n mw (max (exponentOf n mw a.toNat) (exponentOf n mw b.toNat) : Nat)
        (alignedMantissa (max (exponentOf n mw a.toNat) (exponentOf n mw b.toNat)) (exponentOf n mw a.toNat)
          (mantissaOf n mw a.toNat) -
        alignedMantissa (max (exponentOf n mw a.toNat) (exponentOf n mw b.toNat)) (exponentOf n mw b.toNat)
          (mantissaOf n mw b.toNat)) := by
  have ha := mantissaOf_bounds n mw a.toNat hF.width_le
  have hb := mantissaOf_bounds n mw b.toNat hF.width_le
  unfold floatSubtract
  rw [decompose_eq hF, decompose_eq hF]
  dsimp only
  rw [align_eq _ _ _ _ (exponentOf_lt_word hF _) (exponentOf_lt_word hF _) (by omega) (by omega)]
  dsimp only
  have h1 := alignedMantissa_natAbs (max (exponentOf n mw a.toNat) (exponentOf n mw b.toNat)) (exponentOf n mw a.toNat)
    (mantissaOf n mw a.toNat)
  have h2 := alignedMantissa_natAbs (max (exponentOf n mw a.toNat) (exponentOf n mw b.toNat)) (exponentOf n mw b.toNat)
    (mantissaOf n mw b.toNat)
  rw [reassemble_toNat hF _ _ _ (BitVec.ofInt_natCast 32 _).symm, subtractWord_eq_sub, word, word,
    BitVec.sub_eq_add_neg, ← BitVec.ofInt_neg, ← BitVec.ofInt_add, ← Int.sub_eq_add_neg,
    toInt_word _ (by omega) (by omega)]

/-- The container's reading of an integer (R6). -/
theorem signedOf_lowBytes (k : Int) : signedOf 4 (lowBytes 4 k) = (word k).toInt := by
  rw [← word_toNat, BitVec.toInt_eq_toNat_cond, signedOf]
  have : (256 : Nat) ^ 4 = 2 ^ 32 := by norm_num
  have h2 : (256 : Int) ^ 4 = ((2 ^ 32 : Nat) : Int) := by norm_num
  rw [this, h2]

/-- `FMUL` (R133). -/
theorem floatMultiply_toNat {F : FloatFormat} {n mw : Nat} (hF : HasLayout F n mw) (bias : Nat)
    (hbias : F.exponentBias = BitVec.ofNat 32 bias) (a b : Word) :
    (floatMultiply F a b).toNat % 256 ^ n =
      assembled n mw ((exponentOf n mw a.toNat : Int) + exponentOf n mw b.toNat - bias)
        (signedOf 4 (lowBytes 4 (mantissaOf n mw a.toNat * mantissaOf n mw b.toNat)) / 2 ^ mw) := by
  have hp : ((2 ^ mw : Nat) : Int) = 2 ^ mw := by push_cast; rfl
  unfold floatMultiply
  rw [decompose_eq hF, decompose_eq hF]
  dsimp only
  rw [reassemble_toNat hF _ _ ((exponentOf n mw a.toNat : Int) + exponentOf n mw b.toNat - bias), multiplyWord_eq_mul,
    hF.width_eq, asr, BitVec.toInt_sshiftRight, Int.shiftRight_eq_div_pow, hp, signedOf_lowBytes, word, word, word,
    BitVec.ofInt_mul]
  rw [addWord_eq_add, subtractWord_eq_sub, hbias, word, Int.sub_eq_add_neg, BitVec.ofInt_add, BitVec.ofInt_add,
    BitVec.ofInt_neg, BitVec.sub_eq_add_neg, BitVec.ofInt_natCast, BitVec.ofInt_natCast, BitVec.ofInt_natCast]

/-- `FDIV`: the mantissas always lie in the sound domain of the long divider, so it never raises (R134). -/
theorem floatDivide_toNat {F : FloatFormat} {n mw : Nat} (hF : HasLayout F n mw) (bias : Nat)
    (hbias : F.exponentBias = BitVec.ofNat 32 bias) (a b : Word) :
    ∃ w, floatDivide F a b = some w ∧ w.toNat % 256 ^ n =
      assembled n mw ((exponentOf n mw a.toNat : Int) - exponentOf n mw b.toNat + bias)
        ((mantissaOf n mw a.toNat * 2 ^ mw).tdiv (mantissaOf n mw b.toNat)) := by
  have hp := Nat.two_pow_pos mw
  have h23 : 2 ^ mw ≤ 2 ^ 23 := Nat.pow_le_pow_right (by omega) hF.width_le
  have ha := mantissaOf_natAbs n mw a.toNat
  have hb := mantissaOf_natAbs n mw b.toNat
  have hma := Nat.mod_lt a.toNat hp
  have hmb := Nat.mod_lt b.toNat hp
  have hia : (word (mantissaOf n mw a.toNat)).toInt = mantissaOf n mw a.toNat := toInt_word _ (by omega) (by omega)
  have hib : (word (mantissaOf n mw b.toNat)).toInt = mantissaOf n mw b.toNat := toInt_word _ (by omega) (by omega)
  have hb0 : word (mantissaOf n mw b.toNat) ≠ 0#32 := fun h => by
    have h0 : mantissaOf n mw b.toNat = 0 := by
      rw [← hib, h]
      rfl
    rw [h0, Int.natAbs_zero] at hb
    omega
  have hQ : (mantissaOf n mw a.toNat).natAbs * 2 ^ mw / (mantissaOf n mw b.toNat).natAbs < 2 * 2 ^ mw := by
    rw [Nat.div_lt_iff_lt_mul (by omega)]
    calc (mantissaOf n mw a.toNat).natAbs * 2 ^ mw < 2 * 2 ^ mw * 2 ^ mw := Nat.mul_lt_mul_of_pos_right (by omega) hp
      _ ≤ 2 * 2 ^ mw * (mantissaOf n mw b.toNat).natAbs := Nat.mul_le_mul_left _ (by omega)
  have hd := divideFixedPoint_sound (word (mantissaOf n mw a.toNat)) (word (mantissaOf n mw b.toNat)) mw
    (by have := hF.width_le; omega) hb0 (by rw [hia]; omega) (by rw [hib]; omega) (by rw [hia, hib]; omega)
  rw [hia, hib] at hd
  unfold floatDivide
  rw [decompose_eq hF, decompose_eq hF]
  dsimp only
  rw [hF.width_eq, hd]
  refine ⟨_, rfl, ?_⟩
  have hq := truncated_scaled_quotient (mantissaOf n mw a.toNat) (mantissaOf n mw b.toNat) mw
  have hi : (word ((mantissaOf n mw a.toNat * 2 ^ mw).tdiv (mantissaOf n mw b.toNat))).toInt =
      (mantissaOf n mw a.toNat * 2 ^ mw).tdiv (mantissaOf n mw b.toNat) := by
    have hbound : ((mantissaOf n mw a.toNat * 2 ^ mw).tdiv (mantissaOf n mw b.toNat)).natAbs < 2 ^ 31 := by
      rw [hq]
      split
      · rw [Int.natAbs_neg, Int.natAbs_natCast]; omega
      · rw [Int.natAbs_natCast]; omega
    exact toInt_word _ (by omega) (by omega)
  rw [reassemble_toNat hF _ _ ((exponentOf n mw a.toNat : Int) - exponentOf n mw b.toNat + bias), hi]
  rw [addWord_eq_add, subtractWord_eq_sub, hbias, word, Int.sub_eq_add_neg, BitVec.ofInt_add, BitVec.ofInt_add,
    BitVec.ofInt_neg, BitVec.sub_eq_add_neg, BitVec.ofInt_natCast, BitVec.ofInt_natCast, BitVec.ofInt_natCast]

end Sys2Proof.Machine
end

