-- ==== Sys2Proof/Laws/State.lean ====
section
/-! SUPPORT. One lemma per field per update of the state, true by unfolding once. -/

namespace Sys2Proof.Machine

variable (s : State)

@[simp] theorem complete_cmd (m : Memory) : (complete m s).cmd = s.cmd := rfl
@[simp] theorem complete_cond (m : Memory) : (complete m s).cond = .none := rfl
@[simp] theorem complete_v (m : Memory) : (complete m s).v = m := rfl
@[simp] theorem complete_resets (m : Memory) : (complete m s).resets = s.resets := rfl
@[simp] theorem complete_script (m : Memory) : (complete m s).script = s.script := rfl
@[simp] theorem complete_replies (m : Memory) : (complete m s).replies = s.replies := rfl

@[simp] theorem raise_cmd (c : Condition) : (raise c s).cmd = s.cmd := rfl
@[simp] theorem raise_cond (c : Condition) : (raise c s).cond = c := rfl
@[simp] theorem raise_v (c : Condition) : (raise c s).v = s.v := rfl
@[simp] theorem raise_resets (c : Condition) : (raise c s).resets = s.resets := rfl
@[simp] theorem raise_script (c : Condition) : (raise c s).script = s.script := rfl
@[simp] theorem raise_replies (c : Condition) : (raise c s).replies = s.replies := rfl

@[simp] theorem reply_cmd (r : HostReply) : (reply r s).cmd = s.cmd := rfl
@[simp] theorem reply_cond (r : HostReply) : (reply r s).cond = s.cond := rfl
@[simp] theorem reply_v (r : HostReply) : (reply r s).v = s.v := rfl
@[simp] theorem reply_resets (r : HostReply) : (reply r s).resets = s.resets := rfl
@[simp] theorem reply_script (r : HostReply) : (reply r s).script = s.script := rfl
@[simp] theorem reply_replies (r : HostReply) : (reply r s).replies = s.replies ++ [r] := rfl

@[simp] theorem hostReset_cmd : (hostReset s).cmd = 0x00#8 := rfl
@[simp] theorem hostReset_cond : (hostReset s).cond = .none := rfl
@[simp] theorem hostReset_v : (hostReset s).v = [] := rfl
@[simp] theorem hostReset_resets : (hostReset s).resets = s.resets + 1 := rfl
@[simp] theorem hostReset_script : (hostReset s).script = s.script := rfl
@[simp] theorem hostReset_replies : (hostReset s).replies = s.replies := rfl

@[simp] theorem placeCommand_cmd (nbits w : Nat) : (placeCommand s nbits w).cmd = s.cmd := rfl
@[simp] theorem placeCommand_cond (nbits w : Nat) : (placeCommand s nbits w).cond = s.cond := rfl
@[simp] theorem placeCommand_v (nbits w : Nat) : (placeCommand s nbits w).v = s.v := rfl
@[simp] theorem placeCommand_resets (nbits w : Nat) : (placeCommand s nbits w).resets = s.resets := rfl
@[simp] theorem placeCommand_script (nbits w : Nat) : (placeCommand s nbits w).script = .command (BitVec.ofNat 8 (w % 2 ^ nbits)) :: s.script := rfl
@[simp] theorem placeCommand_replies (nbits w : Nat) : (placeCommand s nbits w).replies = s.replies := rfl

end Sys2Proof.Machine
end

