-- ==== Sys2Proof/Laws/Memory.lean ====
section
/-! SUPPORT. Reads after writes, what a write leaves alone, and the canonical form of the staging buffer (R41). -/

namespace Sys2Proof.Machine

@[simp] theorem byteAt?_nil (a : Nat) : Memory.byteAt? [] a = none := rfl

theorem byteAt?_setByte (m : Memory) (a b : Nat) (x : Byte) :
    Memory.byteAt? (Memory.setByte m a x) b = if b = a then some x else Memory.byteAt? m b := by
  induction m with
  | nil => simp [Memory.setByte, Memory.byteAt?, eq_comm]
  | cons c rest ih =>
    obtain ⟨k, y⟩ := c
    by_cases hb : b = a
    · subst hb
      by_cases h1 : b < k
      · simp [Memory.setByte, Memory.byteAt?, h1]
      · by_cases h2 : b = k
        · simp [Memory.setByte, Memory.byteAt?, h2]
        · simp [Memory.setByte, Memory.byteAt?, h1, h2, Ne.symm h2, ih]
    · by_cases h1 : a < k
      · simp [Memory.setByte, Memory.byteAt?, h1, hb, Ne.symm hb]
      · by_cases h2 : a = k
        · subst h2
          simp [Memory.setByte, Memory.byteAt?, hb, Ne.symm hb]
        · simp [Memory.setByte, Memory.byteAt?, h1, h2, hb, ih]

theorem mem_setByte {m : Memory} {a : Nat} {x : Byte} {c : Host.Cell} (h : c ∈ Memory.setByte m a x) :
    c = (a, x) ∨ c ∈ m := by
  induction m with
  | nil => simpa [Memory.setByte] using h
  | cons d rest ih =>
    obtain ⟨k, y⟩ := d
    simp only [Memory.setByte] at h
    split_ifs at h
    · simpa using h
    · rcases List.mem_cons.mp h with h | h
      · exact .inl h
      · exact .inr (List.mem_cons_of_mem _ h)
    · rcases List.mem_cons.mp h with h | h
      · exact .inr (h ▸ List.mem_cons_self)
      · exact (ih h).imp id (List.mem_cons_of_mem _)

theorem setByte_pairwise (m : Memory) (a : Nat) (x : Byte) (h : m.Pairwise (fun c d => c.1 < d.1)) :
    (Memory.setByte m a x).Pairwise (fun c d => c.1 < d.1) := by
  induction m with
  | nil => simp [Memory.setByte]
  | cons d rest ih =>
    obtain ⟨k, y⟩ := d
    obtain ⟨h1, h2⟩ := List.pairwise_cons.mp h
    simp only [Memory.setByte]
    split_ifs with hlt heq
    · refine List.pairwise_cons.mpr ⟨fun c hc => ?_, h⟩
      rcases List.mem_cons.mp hc with rfl | hc
      · exact hlt
      · exact lt_trans hlt (h1 c hc)
    · subst heq
      exact List.pairwise_cons.mpr ⟨h1, h2⟩
    · refine List.pairwise_cons.mpr ⟨fun c hc => ?_, ih h2⟩
      rcases mem_setByte hc with rfl | hc
      · show k < a; omega
      · exact h1 c hc

/-- Writing a byte of `V` keeps the canonical form. -/
theorem setByte_wf (m : Memory) (a : Nat) (x : Byte) (ha : a < bufferSize) (h : Memory.wf m) :
    Memory.wf (Memory.setByte m a x) :=
  ⟨setByte_pairwise m a x h.1, fun c hc => (mem_setByte hc).elim (fun e => e ▸ ha) (h.2 c)⟩

/-- Every multi-byte write inside `V` keeps the canonical form. -/
theorem write_wf (m : Memory) (off n v : Nat) (hn : off + n ≤ bufferSize) (h : Memory.wf m) :
    Memory.wf (Memory.write m off n v) := by
  induction n generalizing m off v with
  | zero => exact h
  | succ n ih =>
    exact ih _ _ _ (by omega) (setByte_wf m off _ (by omega) h)

/-- A write changes only the bytes it names, and byte `i` of them takes byte `i` of the value (R41). -/
theorem byteAt?_write (m : Memory) (off n v a : Nat) :
    Memory.byteAt? (Memory.write m off n v) a =
      if off ≤ a ∧ a < off + n then some (BitVec.ofNat 8 (v / 256 ^ (a - off))) else Memory.byteAt? m a := by
  induction n generalizing m off v with
  | zero =>
    rw [if_neg (by omega)]
    rfl
  | succ n ih =>
    rw [Memory.write, ih, byteAt?_setByte]
    by_cases h1 : a = off
    · subst h1; simp
    · by_cases h2 : off ≤ a ∧ a < off + (n + 1)
      · have e : a - off = (a - (off + 1)) + 1 := by omega
        rw [if_pos (by omega), if_pos h2, Nat.div_div_eq_div_mul, e, Nat.pow_succ, Nat.mul_comm]
      · rw [if_neg (by omega), if_neg h1, if_neg h2]

/-- A byte read sees only `V` and the free contents of its unwritten bytes. -/
theorem byteAt_congr {s t : State} {a : Nat} (hv : Memory.byteAt? t.v a = Memory.byteAt? s.v a)
    (hr : t.resets = s.resets) : t.byteAt a = s.byteAt a := by
  simp only [State.byteAt, hv, hr]

/-- A read depends on the bytes it names only. -/
theorem memRead_congr {s t : State} {off n : Nat} (h : ∀ a, off ≤ a → a < off + n → t.byteAt a = s.byteAt a) :
    t.memRead off n = s.memRead off n := by
  induction n generalizing off with
  | zero => rfl
  | succ n ih =>
    simp only [State.memRead]
    rw [h off (le_refl _) (by omega), ih fun a h1 h2 => h a (by omega) (by omega)]

/-- A read of `n` bytes is below `256^n`. -/
theorem memRead_lt (s : State) (off n : Nat) : s.memRead off n < 256 ^ n := by
  induction n generalizing off with
  | zero => simp [State.memRead]
  | succ n ih =>
    have h1 := (s.byteAt off).isLt
    have h2 := ih (off + 1)
    simp only [State.memRead, Nat.pow_succ]
    omega

/-- Reading back what a write left gives its low bytes (R41). -/
theorem memRead_of_bytes (s : State) (off n v : Nat)
    (h : ∀ i, i < n → s.byteAt (off + i) = BitVec.ofNat 8 (v / 256 ^ i)) : s.memRead off n = v % 256 ^ n := by
  induction n generalizing off v with
  | zero => simp [State.memRead, Nat.mod_one]
  | succ n ih =>
    have h0 := h 0 (by omega)
    simp only [State.memRead]
    rw [show off = off + 0 from rfl, h0, ih (off + 0 + 1) (v / 256)]
    · rw [Nat.pow_succ, Nat.mul_comm (256 ^ n), Nat.mod_mul]
      simp
    · intro i hi
      have := h (i + 1) (by omega)
      rw [show off + 0 + 1 + i = off + (i + 1) by omega, this, Nat.pow_succ, Nat.mul_comm, ← Nat.div_div_eq_div_mul]

/-- A read of exactly the bytes just written (R41). -/
theorem memRead_write_same (s : State) (m : Memory) (off n v : Nat)
    (hs : s.v = Memory.write m off n v) : s.memRead off n = v % 256 ^ n := by
  refine memRead_of_bytes s off n v fun i hi => ?_
  simp only [State.byteAt, hs, byteAt?_write]
  rw [if_pos (by omega)]
  simp

end Sys2Proof.Machine
end

