-- ==== Sys2Proof/Laws/Results.lean ====
section
/-! SUPPORT. What the end of a command delivers, and what operand intake reads (R30, R43, R44). -/

namespace Sys2Proof.Machine

/-- One result range written: the low bytes of the value, and nothing else. -/
theorem delivers_write (s : State) (off n v : Nat) :
    Delivers s (complete (Memory.write s.v off n v) s) [(off, n, v % 256 ^ n)] := by
  refine ⟨rfl, ?_, ?_, ?_⟩
  · intro p hp
    rw [List.mem_singleton] at hp
    subst hp
    exact memRead_write_same _ s.v off n v rfl
  · intro p hp a h1 h2
    rw [List.mem_singleton] at hp
    subst hp
    rw [complete_v, byteAt?_write, if_pos ⟨h1, h2⟩]
    rfl
  · intro a h
    have := h _ List.mem_cons_self
    dsimp only at this
    rw [complete_v, byteAt?_write, if_neg (by omega)]

/-- A result word delivered in a slot (R44). -/
theorem delivers_put (s : State) (slot : Slot) (n : Nat) (w : Word) :
    Delivers s (complete (put s.v slot n w) s) [(slot.offset, n, w.toNat % 256 ^ n)] :=
  delivers_write s slot.offset n w.toNat

/-- Two result words delivered in `R` and `R2`, which do not overlap up to four bytes (R21). -/
theorem delivers_put_put (s : State) (n : Nat) (hn : n ≤ 4) (q r : Word) :
    Delivers s (complete (put (put s.v .r n q) .r2 n r) s)
      [(8, n, q.toNat % 256 ^ n), (12, n, r.toNat % 256 ^ n)] := by
  have hb : ∀ a, Memory.byteAt? (put (put s.v .r n q) .r2 n r) a =
      if 12 ≤ a ∧ a < 12 + n then some (BitVec.ofNat 8 (r.toNat / 256 ^ (a - 12)))
      else if 8 ≤ a ∧ a < 8 + n then some (BitVec.ofNat 8 (q.toNat / 256 ^ (a - 8)))
      else Memory.byteAt? s.v a := fun a => by
    simp only [put, Slot.offset, byteAt?_write]
  refine ⟨rfl, ?_, ?_, ?_⟩
  · intro p hp
    simp only [List.mem_cons, List.not_mem_nil, or_false] at hp
    rcases hp with rfl | rfl
    · refine memRead_of_bytes _ 8 n q.toNat fun i hi => ?_
      simp only [State.byteAt, complete_v, hb]
      rw [if_neg (by omega), if_pos (by omega)]
      simp
    · refine memRead_of_bytes _ 12 n r.toNat fun i hi => ?_
      simp only [State.byteAt, complete_v, hb]
      rw [if_pos (by omega)]
      simp
  · intro p hp a h1 h2
    simp only [List.mem_cons, List.not_mem_nil, or_false] at hp
    rw [complete_v, hb]
    rcases hp with rfl | rfl <;> dsimp only at h1 h2
    · rw [if_neg (by omega), if_pos ⟨h1, h2⟩]; rfl
    · rw [if_pos ⟨h1, h2⟩]; rfl
  · intro a h
    have h1 := h _ List.mem_cons_self
    have h2 := h _ (List.mem_cons_of_mem _ List.mem_cons_self)
    dsimp only at h1 h2
    rw [complete_v, hb, if_neg (by omega), if_neg (by omega)]

/-- A zero-extended operand keeps its natural value (R43). -/
theorem getU_toNat (s : State) (slot : Slot) (n : Nat) (hn : n ≤ 4) :
    (getU s slot n).toNat = s.memRead slot.offset n := by
  have h1 := memRead_lt s slot.offset n
  have h2 : (256 : Nat) ^ n = 2 ^ (8 * n) := by rw [show (256 : Nat) = 2 ^ 8 from rfl, ← Nat.pow_mul]
  have h3 : 2 ^ (8 * n) ≤ 2 ^ 32 := Nat.pow_le_pow_right (by omega) (by omega)
  simp only [getU, zextBytes, BitVec.toNat_setWidth, BitVec.toNat_ofNat]
  rw [Nat.mod_eq_of_lt (by omega), Nat.mod_eq_of_lt (by omega)]

/-- A sign-extended operand keeps its signed value (R43). -/
theorem getS_toInt (s : State) (slot : Slot) (n : Nat) (h0 : 0 < n) (hn : n ≤ 4) :
    (getS s slot n).toInt = signedOf n (s.memRead slot.offset n) := by
  have h1 := memRead_lt s slot.offset n
  have h2 : (256 : Nat) ^ n = 2 ^ (8 * n) := by rw [show (256 : Nat) = 2 ^ 8 from rfl, ← Nat.pow_mul]
  have h3 : (256 : Int) ^ n = 2 ^ (8 * n) := by rw [show (256 : Int) = 2 ^ 8 from rfl, ← pow_mul]
  rw [h2] at h1
  simp only [getS, sextBytes]
  rw [BitVec.toInt_signExtend_of_le (by omega), BitVec.toInt_eq_toNat_cond, BitVec.toNat_ofNat, Nat.mod_eq_of_lt h1,
    signedOf, h2, h3]
  split <;> simp

/-- The low bytes of a sign-extended operand are the operand. -/
theorem getS_toNat_mod (s : State) (slot : Slot) (n : Nat) (h0 : 0 < n) (hn : n ≤ 4) :
    (getS s slot n).toNat % 256 ^ n = s.memRead slot.offset n := by
  have h1 := memRead_lt s slot.offset n
  have hp : (256 : Nat) ^ n ∣ 2 ^ 32 := by
    rw [show (256 : Nat) = 2 ^ 8 from rfl, ← Nat.pow_mul]
    exact Nat.pow_dvd_pow 2 (by omega)
  have hi := getS_toInt s slot n h0 hn
  have e : ((getS s slot n).toNat : Int) % 256 ^ n = (getS s slot n).toInt % 256 ^ n := by
    rw [BitVec.toInt_eq_msb_cond]
    split
    · obtain ⟨c, hc⟩ := hp
      rw [show ((2 ^ 32 : Nat) : Int) = 256 ^ n * c by rw [hc]; push_cast; rfl, Int.sub_mul_emod_self_left]
    · rfl
  have e2 : (signedOf n (s.memRead slot.offset n)) % 256 ^ n = s.memRead slot.offset n := by
    unfold signedOf
    have h4 : ((s.memRead slot.offset n : Nat) : Int) < 256 ^ n := by exact_mod_cast h1
    split
    · exact Int.emod_eq_of_lt (by omega) h4
    · rw [Int.sub_emod_right]
      exact Int.emod_eq_of_lt (by omega) h4
  rw [hi, e2] at e
  exact_mod_cast e

/-- An operand word is zero exactly when the bytes it was read from are (R151). -/
theorem getS_eq_zero_iff (s : State) (slot : Slot) (n : Nat) (h0 : 0 < n) (hn : n ≤ 4) :
    getS s slot n = 0#32 ↔ s.memRead slot.offset n = 0 := by
  constructor
  · intro h
    have := getS_toNat_mod s slot n h0 hn
    rw [h] at this
    simpa using this.symm
  · intro h
    apply BitVec.eq_of_toInt_eq
    rw [getS_toInt s slot n h0 hn, h]
    simp [signedOf]

/-- Operand intake depends on the bytes of the slot only. -/
theorem getS_congr {s t : State} {slot : Slot} {n : Nat}
    (h : ∀ a, slot.offset ≤ a → a < slot.offset + n → t.byteAt a = s.byteAt a) : getS t slot n = getS s slot n := by
  rw [getS, getS, memRead_congr h]

theorem getU_congr {s t : State} {slot : Slot} {n : Nat}
    (h : ∀ a, slot.offset ≤ a → a < slot.offset + n → t.byteAt a = s.byteAt a) : getU t slot n = getU s slot n := by
  rw [getU, getU, memRead_congr h]

/-- A delivered word by its signed reading (R44). -/
theorem toNat_mod_eq_lowBytes (n : Nat) (hn : n ≤ 4) (w : Word) : w.toNat % 256 ^ n = lowBytes n w.toInt := by
  have hd : (256 : Nat) ^ n ∣ 2 ^ 32 := by
    rw [show (256 : Nat) = 2 ^ 8 from rfl, ← Nat.pow_mul]; exact Nat.pow_dvd_pow 2 (by omega)
  have e : (w.toNat : Int) % 256 ^ n = w.toInt % 256 ^ n := by
    rw [BitVec.toInt_eq_msb_cond]
    split
    · obtain ⟨c, hc⟩ := hd
      rw [show ((2 ^ 32 : Nat) : Int) = 256 ^ n * c by rw [hc]; push_cast; rfl, Int.sub_mul_emod_self_left]
    · rfl
  rw [lowBytes, ← e]
  have : ((256 ^ n : Nat) : Int) = 256 ^ n := by push_cast; rfl
  rw [← this]
  omega

/-- A delivered word made of an integer (R6, R44). -/
theorem lowBytes_word (n : Nat) (hn : n ≤ 4) (k : Int) : (word k).toNat % 256 ^ n = lowBytes n k := by
  have hd : (256 : Nat) ^ n ∣ 2 ^ 32 := by
    rw [show (256 : Nat) = 2 ^ 8 from rfl, ← Nat.pow_mul]; exact Nat.pow_dvd_pow 2 (by omega)
  rw [word, BitVec.toNat_ofInt, lowBytes]
  have h2 : (((256 ^ n : Nat)) : Int) ∣ ((2^32 : Nat) : Int) := by exact_mod_cast hd
  have h3 : ((256 ^ n : Nat) : Int) = 256 ^ n := by push_cast; rfl
  have h4 := Int.emod_emod_of_dvd k h2
  rw [h3] at h4
  rw [← h4, ← h3]
  have h5 : 0 ≤ k % ((2 ^ 32 : Nat) : Int) := Int.emod_nonneg _ (by norm_num)
  rw [Int.toNat_emod h5 (by positivity), Int.toNat_natCast]

/-- A result word delivered in `R`, with its low bytes named. -/
theorem delivers_put_eq (s : State) (n : Nat) (w : Word) (v : Nat) (h : w.toNat % 256 ^ n = v) :
    Delivers s (complete (put s.v .r n w) s) [(8, n, v)] :=
  h ▸ delivers_put s .r n w

end Sys2Proof.Machine
end

