-- ==== Sys2Proof/Laws/Exec.lean ====
section
/-! SUPPORT. What a command can do, said once: it completes with its result slots written, or it raises a condition of
its own (R30, R60, R150, R157). And what a host step can do. -/

namespace Sys2Proof.Machine

/-- A command that completed: only bytes of the ranges changed, and `V` stays canonical if it was. -/
def Completes (ranges : List (Nat × Nat)) (s t : State) : Prop :=
  ∃ m, (Memory.wf s.v → Memory.wf m) ∧ (∀ a, ¬ inRanges ranges a → Memory.byteAt? m a = Memory.byteAt? s.v a) ∧
    t = complete m s

/-- A command that raised one of the conditions. -/
def Raises (conditions : List Condition) (s t : State) : Prop := ∃ c ∈ conditions, c ≠ .none ∧ t = raise c s

/-- Everything a command can do. -/
def Ends (i : Instr) (s t : State) : Prop := Completes (resultRanges i) s t ∨ Raises (possibleConditions i) s t

theorem byteAt?_write_of_not_inRanges (m : Memory) (off n v a : Nat) (h : ¬ inRanges [(off, n)] a) :
    Memory.byteAt? (Memory.write m off n v) a = Memory.byteAt? m a := by
  rw [byteAt?_write, if_neg fun hh => h ⟨_, List.mem_cons_self, hh⟩]

theorem not_inRanges_cons {p : Nat × Nat} {ranges : List (Nat × Nat)} {a : Nat} (h : ¬ inRanges (p :: ranges) a) :
    ¬ inRanges [p] a ∧ ¬ inRanges ranges a := by
  refine ⟨fun ⟨q, hq, ha⟩ => h ⟨q, ?_, ha⟩, fun ⟨q, hq, ha⟩ => h ⟨q, List.mem_cons_of_mem _ hq, ha⟩⟩
  rw [List.mem_singleton] at hq
  exact hq ▸ List.mem_cons_self

theorem completes_write (s : State) (off n v : Nat) (hn : off + n ≤ 32) :
    Completes [(off, n)] s (complete (Memory.write s.v off n v) s) :=
  ⟨_, write_wf s.v off n v hn, fun a h => byteAt?_write_of_not_inRanges _ _ _ _ a h, rfl⟩

theorem completes_put (s : State) (n : Nat) (w : Word) (hn : n ≤ 4) :
    Completes [(8, n)] s (complete (put s.v .r n w) s) :=
  completes_write s 8 n w.toNat (by omega)

theorem completes_put_put (s : State) (n : Nat) (q r : Word) (hn : n ≤ 4) :
    Completes [(8, n), (12, n)] s (complete (put (put s.v .r n q) .r2 n r) s) := by
  refine ⟨_, fun h => write_wf _ 12 n _ (show 12 + n ≤ 32 by omega) (write_wf _ 8 n _ (show 8 + n ≤ 32 by omega) h),
    fun a h => ?_, rfl⟩
  obtain ⟨h1, h2⟩ := not_inRanges_cons h
  exact (byteAt?_write_of_not_inRanges _ 12 n _ a h2).trans (byteAt?_write_of_not_inRanges _ 8 n _ a h1)

theorem widthBytes_le (w : Width) : widthBytes w ≤ 4 := by cases w <;> decide

theorem raises_own (s : State) (c : Condition) (h : c ≠ .none) : Raises [.none, c] s (raise c s) :=
  ⟨c, List.mem_cons_of_mem _ List.mem_cons_self, h, rfl⟩

theorem binaryCommand_ends (f : Word → Word → Word) (w : Width) (s : State) :
    Completes [(8, widthBytes w)] s (binaryCommand f w s) :=
  completes_put s _ _ (widthBytes_le w)

theorem negCommand_ends (w : Width) (s : State) : Completes [(8, widthBytes w)] s (negCommand w s) :=
  completes_put s _ _ (widthBytes_le w)

theorem divCommand_ends (w : Width) (s : State) :
    Completes [(8, widthBytes w), (12, widthBytes w)] s (divCommand w s) ∨
      Raises [.none, .divideByZero] s (divCommand w s) := by
  unfold divCommand
  split
  · exact .inr (raises_own s _ (by decide))
  · exact .inl (completes_put_put s _ _ _ (widthBytes_le w))

theorem fxencCommand_ends (w : Width) (s : State) :
    Completes [(8, widthBytes w)] s (fxencCommand w s) ∨ Raises [.none, .invalidOperand] s (fxencCommand w s) := by
  unfold fxencCommand
  dsimp only
  split
  · exact .inl (completes_put s _ _ (widthBytes_le w))
  · exact .inr (raises_own s _ (by decide))

theorem fxdecCommand_ends (w : Width) (s : State) : Completes [(24, 8)] s (fxdecCommand w s) :=
  completes_write s 24 8 _ (by decide)

theorem fxdivCommand_ends (w : Width) (s : State) :
    Completes [(8, widthBytes w)] s (fxdivCommand w s) ∨ Raises [.none, .degenerateDivisor] s (fxdivCommand w s) := by
  unfold fxdivCommand
  split
  · exact .inr (raises_own s _ (by decide))
  · exact .inl (completes_put s _ _ (widthBytes_le w))

theorem fdecCommand_ends (F : FloatFormat) (s : State) : Completes [(8, 4), (12, 4)] s (fdecCommand F s) :=
  completes_put_put s 4 _ _ (le_refl _)

theorem fasmCommand_ends (F : FloatFormat) (h : F.bytes ≤ 4) (s : State) :
    Completes [(8, F.bytes)] s (fasmCommand F s) :=
  completes_put s _ _ h

theorem floatCommand_ends (F : FloatFormat) (h : F.bytes ≤ 4) (f : FloatFormat → Word → Word → Word) (s : State) :
    Completes [(8, F.bytes)] s (floatCommand F f s) :=
  completes_put s _ _ h

theorem fdivCommand_ends {F : FloatFormat} {n mw : Nat} (hF : HasLayout F n mw) (bias : Nat)
    (hbias : F.exponentBias = BitVec.ofNat 32 bias) (s : State) : Completes [(8, F.bytes)] s (fdivCommand F s) := by
  obtain ⟨w, h, -⟩ := floatDivide_toNat hF bias hbias (getU s .a F.bytes) (getU s .b F.bytes)
  unfold fdivCommand
  rw [h]
  exact completes_put s _ _ (hF.bytes_eq ▸ hF.bytes_le)

/-- Every command ends in a next state (R176): it completed, or it raised a condition of its own. -/
theorem exec_ends (i : Instr) (s : State) : ∃ t, exec i s = .next t ∧ Ends i s t := by
  cases i with
  | addW8 => exact ⟨_, rfl, .inl (binaryCommand_ends addWord .w8 s)⟩
  | negW8 => exact ⟨_, rfl, .inl (negCommand_ends .w8 s)⟩
  | subW8 => exact ⟨_, rfl, .inl (binaryCommand_ends subtractWord .w8 s)⟩
  | mulW8 => exact ⟨_, rfl, .inl (binaryCommand_ends multiplyWord .w8 s)⟩
  | divW8 => exact ⟨_, rfl, divCommand_ends .w8 s⟩
  | fxencW8 => exact ⟨_, rfl, fxencCommand_ends .w8 s⟩
  | fxdecW8 => exact ⟨_, rfl, .inl (fxdecCommand_ends .w8 s)⟩
  | fxdivW8 => exact ⟨_, rfl, fxdivCommand_ends .w8 s⟩
  | addW16 => exact ⟨_, rfl, .inl (binaryCommand_ends addWord .w16 s)⟩
  | negW16 => exact ⟨_, rfl, .inl (negCommand_ends .w16 s)⟩
  | subW16 => exact ⟨_, rfl, .inl (binaryCommand_ends subtractWord .w16 s)⟩
  | mulW16 => exact ⟨_, rfl, .inl (binaryCommand_ends multiplyWord .w16 s)⟩
  | divW16 => exact ⟨_, rfl, divCommand_ends .w16 s⟩
  | fxencW16 => exact ⟨_, rfl, fxencCommand_ends .w16 s⟩
  | fxdecW16 => exact ⟨_, rfl, .inl (fxdecCommand_ends .w16 s)⟩
  | fxdivW16 => exact ⟨_, rfl, fxdivCommand_ends .w16 s⟩
  | fdecF16 => exact ⟨_, rfl, .inl (fdecCommand_ends f16 s)⟩
  | fasmF16 => exact ⟨_, rfl, .inl (fasmCommand_ends f16 (by decide) s)⟩
  | faddF16 => exact ⟨_, rfl, .inl (floatCommand_ends f16 (by decide) floatAdd s)⟩
  | fsubF16 => exact ⟨_, rfl, .inl (floatCommand_ends f16 (by decide) floatSubtract s)⟩
  | fmulF16 => exact ⟨_, rfl, .inl (floatCommand_ends f16 (by decide) floatMultiply s)⟩
  | fdivF16 => exact ⟨_, rfl, .inl (fdivCommand_ends f16_hasLayout 15 rfl s)⟩
  | cmpmagW32 => exact ⟨_, rfl, .inl (completes_put s 4 _ (le_refl _))⟩
  | msbW32 => exact ⟨_, rfl, .inl (completes_put s 4 _ (le_refl _))⟩
  | addW32 => exact ⟨_, rfl, .inl (binaryCommand_ends addWord .w32 s)⟩
  | negW32 => exact ⟨_, rfl, .inl (negCommand_ends .w32 s)⟩
  | subW32 => exact ⟨_, rfl, .inl (binaryCommand_ends subtractWord .w32 s)⟩
  | mulW32 => exact ⟨_, rfl, .inl (binaryCommand_ends multiplyWord .w32 s)⟩
  | divW32 => exact ⟨_, rfl, divCommand_ends .w32 s⟩
  | fxencW32 => exact ⟨_, rfl, fxencCommand_ends .w32 s⟩
  | fxdecW32 => exact ⟨_, rfl, .inl (fxdecCommand_ends .w32 s)⟩
  | fxdivW32 => exact ⟨_, rfl, fxdivCommand_ends .w32 s⟩
  | fdecF32 => exact ⟨_, rfl, .inl (fdecCommand_ends f32 s)⟩
  | fasmF32 => exact ⟨_, rfl, .inl (fasmCommand_ends f32 (by decide) s)⟩
  | faddF32 => exact ⟨_, rfl, .inl (floatCommand_ends f32 (by decide) floatAdd s)⟩
  | fsubF32 => exact ⟨_, rfl, .inl (floatCommand_ends f32 (by decide) floatSubtract s)⟩
  | fmulF32 => exact ⟨_, rfl, .inl (floatCommand_ends f32 (by decide) floatMultiply s)⟩
  | fdivF32 => exact ⟨_, rfl, .inl (fdivCommand_ends f32_hasLayout 127 rfl s)⟩

/-- A command changes `V` and `COND` and nothing else. -/
theorem Ends.others {i : Instr} {s t : State} (h : Ends i s t) : t = { s with v := t.v, cond := t.cond } := by
  rcases h with ⟨m, -, -, rfl⟩ | ⟨c, -, -, rfl⟩ <;> rfl

/-- A command that leaves a condition changed nothing but `COND` (R157). -/
theorem Ends.of_cond {i : Instr} {s t : State} (h : Ends i s t) (hc : t.cond ≠ .none) : t = { s with cond := t.cond } := by
  rcases h with ⟨m, -, -, rfl⟩ | ⟨c, -, -, rfl⟩
  · exact absurd rfl hc
  · rfl

theorem Ends.wf {i : Instr} {s t : State} (h : Ends i s t) (hs : Memory.wf s.v) : Memory.wf t.v := by
  rcases h with ⟨m, hm, -, rfl⟩ | ⟨c, -, -, rfl⟩
  · exact hm hs
  · exact hs

/-- Running a command gives one of its ends. -/
theorem ends_of_exec {i : Instr} {s t : State} (h : exec i s = .next t) : Ends i s t := by
  obtain ⟨u, hu, he⟩ := exec_ends i s
  rw [hu] at h
  cases h
  exact he

/-- A step takes the next host step off the script. -/
theorem step_eq (s : State) (h : HostStep) (rest : List HostStep) (e : s.script = h :: rest) :
    step s = hostStep h { s with script := rest } := by
  rw [step, nextHostStep, e]

/-- A host access goes on exactly when the block has the bytes and the width (R45). -/
theorem hostAccess_eq_next_iff (off n : Nat) (s t : State) :
    hostAccess off n s = .next t ↔ (n = 1 ∨ n = 2 ∨ n = 4 ∨ n = 8) ∧ off + n ≤ 32 ∧ t = s := by
  unfold hostAccess bufferSize
  split_ifs with h1 h2
  · simp [h1, h2, eq_comm]
  · simp [h2]
  · simp [h1]

end Sys2Proof.Machine
end

