-- ==== Sys2Proof/Laws/PerInstr.lean ====
section
/-! SUPPORT. Statements made per command: its word decodes to it, and its fields are the table's. -/

namespace Sys2Proof.Laws.EncodeDecode

/-- The command's word decodes to it, and the word's fields are the command's `op` and `sel` (R61, R64). -/
def Statement (i : Instr) : Prop :=
  decode (encode i) = .instr i ∧ opField (encode i) = i.op ∧ selField (encode i) = i.sel ∧ zeroField (encode i) = 0

theorem addW8 : Statement .addW8 := ⟨rfl, rfl, rfl, rfl⟩

theorem negW8 : Statement .negW8 := ⟨rfl, rfl, rfl, rfl⟩

theorem subW8 : Statement .subW8 := ⟨rfl, rfl, rfl, rfl⟩

theorem mulW8 : Statement .mulW8 := ⟨rfl, rfl, rfl, rfl⟩

theorem divW8 : Statement .divW8 := ⟨rfl, rfl, rfl, rfl⟩

theorem fxencW8 : Statement .fxencW8 := ⟨rfl, rfl, rfl, rfl⟩

theorem fxdecW8 : Statement .fxdecW8 := ⟨rfl, rfl, rfl, rfl⟩

theorem fxdivW8 : Statement .fxdivW8 := ⟨rfl, rfl, rfl, rfl⟩

theorem addW16 : Statement .addW16 := ⟨rfl, rfl, rfl, rfl⟩

theorem negW16 : Statement .negW16 := ⟨rfl, rfl, rfl, rfl⟩

theorem subW16 : Statement .subW16 := ⟨rfl, rfl, rfl, rfl⟩

theorem mulW16 : Statement .mulW16 := ⟨rfl, rfl, rfl, rfl⟩

theorem divW16 : Statement .divW16 := ⟨rfl, rfl, rfl, rfl⟩

theorem fxencW16 : Statement .fxencW16 := ⟨rfl, rfl, rfl, rfl⟩

theorem fxdecW16 : Statement .fxdecW16 := ⟨rfl, rfl, rfl, rfl⟩

theorem fxdivW16 : Statement .fxdivW16 := ⟨rfl, rfl, rfl, rfl⟩

theorem fdecF16 : Statement .fdecF16 := ⟨rfl, rfl, rfl, rfl⟩

theorem fasmF16 : Statement .fasmF16 := ⟨rfl, rfl, rfl, rfl⟩

theorem faddF16 : Statement .faddF16 := ⟨rfl, rfl, rfl, rfl⟩

theorem fsubF16 : Statement .fsubF16 := ⟨rfl, rfl, rfl, rfl⟩

theorem fmulF16 : Statement .fmulF16 := ⟨rfl, rfl, rfl, rfl⟩

theorem fdivF16 : Statement .fdivF16 := ⟨rfl, rfl, rfl, rfl⟩

theorem cmpmagW32 : Statement .cmpmagW32 := ⟨rfl, rfl, rfl, rfl⟩

theorem msbW32 : Statement .msbW32 := ⟨rfl, rfl, rfl, rfl⟩

theorem addW32 : Statement .addW32 := ⟨rfl, rfl, rfl, rfl⟩

theorem negW32 : Statement .negW32 := ⟨rfl, rfl, rfl, rfl⟩

theorem subW32 : Statement .subW32 := ⟨rfl, rfl, rfl, rfl⟩

theorem mulW32 : Statement .mulW32 := ⟨rfl, rfl, rfl, rfl⟩

theorem divW32 : Statement .divW32 := ⟨rfl, rfl, rfl, rfl⟩

theorem fxencW32 : Statement .fxencW32 := ⟨rfl, rfl, rfl, rfl⟩

theorem fxdecW32 : Statement .fxdecW32 := ⟨rfl, rfl, rfl, rfl⟩

theorem fxdivW32 : Statement .fxdivW32 := ⟨rfl, rfl, rfl, rfl⟩

theorem fdecF32 : Statement .fdecF32 := ⟨rfl, rfl, rfl, rfl⟩

theorem fasmF32 : Statement .fasmF32 := ⟨rfl, rfl, rfl, rfl⟩

theorem faddF32 : Statement .faddF32 := ⟨rfl, rfl, rfl, rfl⟩

theorem fsubF32 : Statement .fsubF32 := ⟨rfl, rfl, rfl, rfl⟩

theorem fmulF32 : Statement .fmulF32 := ⟨rfl, rfl, rfl, rfl⟩

theorem fdivF32 : Statement .fdivF32 := ⟨rfl, rfl, rfl, rfl⟩

end Sys2Proof.Laws.EncodeDecode
end

