-- ==== Sys2Proof/Laws/Rational.lean ====
section
/-! SUPPORT. The 64-bit rational port (R113): the value of a pattern, the pattern of a value, and what rounding to an
integer gives (R110, R111). -/

namespace Sys2Proof.Machine

/-- `scaledValue64` is the value of the pattern in units of `2^-1075` (R113). -/
theorem value64_eq (x : Nat) : value64 x = (scaledValue64 x : ℚ) / 2 ^ 1075 := by
  have h1 : (2 : ℚ) ^ 1075 = 2 ^ 1023 * 2 ^ 52 := by rw [← pow_add]
  have h2 : (2 : ℚ) ^ (-1022 : Int) = 2 / 2 ^ 1023 := by
    rw [show (-1022 : Int) = 1 - (1023 : ℕ) by norm_num, zpow_sub₀ (by norm_num), zpow_one, zpow_natCast]
  have h3 : ∀ e : ℕ, (2 : ℚ) ^ ((e : Int) - 1023) = 2 ^ e / 2 ^ 1023 := fun e => by
    rw [show (1023 : Int) = (1023 : ℕ) by norm_num, zpow_sub₀ (by norm_num), zpow_natCast, zpow_natCast]
  have hp : (2 : ℚ) ^ 1023 ≠ 0 := pow_ne_zero _ (by norm_num)
  unfold value64 scaledValue64 sign64 exponent64 fraction64
  rw [h1, h2, h3]
  generalize (2 : ℚ) ^ 1023 = c at hp
  generalize x / 2 ^ 52 % 2 ^ 11 = e
  generalize x % 2 ^ 52 = f
  rcases Nat.mod_two_eq_zero_or_one (x / 2 ^ 63) with hs | hs <;> rw [hs] <;> by_cases he : e = 0 <;>
    simp [he] <;> field_simp <;> ring

/-- `roundInt` is the spec's `RoundInt` (R110). -/
theorem roundInt_roundsTo (tie : RoundTie) (num : Int) (k : Nat) :
    RoundsTo tie ((num : ℚ) / 2 ^ k) (roundInt tie num k) := by
  have hpos : (0 : Int) < 2 ^ k := by positivity
  have hposq : (0 : ℚ) < 2 ^ k := by positivity
  have hdm := Int.mul_ediv_add_emod num (2 ^ k)
  have h0 := Int.emod_nonneg num (ne_of_gt hpos)
  have h1 := Int.emod_lt_of_pos num hpos
  unfold roundInt
  dsimp only
  generalize num / 2 ^ k = q at *
  generalize num % 2 ^ k = r at *
  have hdmq : (num : ℚ) = 2 ^ k * q + r := by rw [← hdm]; push_cast; ring
  have ht : (num : ℚ) / 2 ^ k = q + (r : ℚ) / 2 ^ k := by rw [hdmq]; field_simp
  have hr0 : 0 ≤ (r : ℚ) / 2 ^ k := div_nonneg (by exact_mod_cast h0) hposq.le
  have hr1 : (r : ℚ) / 2 ^ k < 1 := by rw [div_lt_one hposq]; exact_mod_cast h1
  have hf : Int.fract ((num : ℚ) / 2 ^ k) = (r : ℚ) / 2 ^ k := by
    rw [ht, Int.fract_intCast_add, Int.fract_eq_self.mpr ⟨hr0, hr1⟩]
  have hlt : 2 * r < 2 ^ k ↔ (r : ℚ) / 2 ^ k < 1 / 2 := by
    rw [div_lt_iff₀ hposq]
    constructor
    · intro h
      have : (2 * r : ℚ) < 2 ^ k := by exact_mod_cast h
      linarith
    · intro h
      have : (2 * r : ℚ) < 2 ^ k := by linarith
      exact_mod_cast this
  have hgt : 2 ^ k < 2 * r ↔ 1 / 2 < (r : ℚ) / 2 ^ k := by
    rw [lt_div_iff₀ hposq]
    constructor
    · intro h
      have : (2 ^ k : ℚ) < 2 * r := by exact_mod_cast h
      linarith
    · intro h
      have : (2 ^ k : ℚ) < 2 * r := by linarith
      exact_mod_cast this
  have hneg : num < 0 ↔ (q : ℚ) + (r : ℚ) / 2 ^ k < 0 := by
    rw [← ht, div_lt_iff₀ hposq, zero_mul]
    norm_cast
  unfold RoundsTo
  rw [hf, ht]
  generalize (r : ℚ) / 2 ^ k = y at *
  by_cases c1 : 2 * r < 2 ^ k
  · rw [if_pos c1, if_neg (by linarith [hlt.mp c1] : ¬ y = 1 / 2)]
    rw [abs_lt]
    have := hlt.mp c1
    constructor <;> linarith
  · rw [if_neg c1]
    by_cases c2 : 2 ^ k < 2 * r
    · have := hgt.mp c2
      rw [if_pos c2, if_neg (by linarith : ¬ y = 1 / 2), abs_lt]
      push_cast
      constructor <;> linarith
    · have hy : y = 1 / 2 := le_antisymm (not_lt.mp fun h => c2 (hgt.mpr h)) (not_lt.mp fun h => c1 (hlt.mpr h))
      rw [if_neg c2, if_pos hy, hy]
      cases tie with
      | towardPosInf =>
        show q + 1 = _
        rw [show (q : ℚ) + 1 / 2 + 1 / 2 = ((q + 1 : Int) : ℚ) by push_cast; ring, Int.floor_intCast]
      | awayFromZero =>
        show (if num < 0 then q else q + 1) = _
        by_cases hn : num < 0
        · have := hneg.mp hn
          rw [hy] at this
          rw [if_pos hn, if_neg (by linarith : ¬ (0 : ℚ) ≤ q + 1 / 2), abs_of_neg (by linarith),
            show -((q : ℚ) + 1 / 2) + 1 / 2 = ((-q : Int) : ℚ) by push_cast; ring, Int.floor_intCast]
          ring
        · have := mt hneg.mpr hn
          rw [hy] at this
          rw [if_neg hn, if_pos (by linarith : (0 : ℚ) ≤ q + 1 / 2), abs_of_nonneg (by linarith),
            show (q : ℚ) + 1 / 2 + 1 / 2 = ((q + 1 : Int) : ℚ) by push_cast; ring, Int.floor_intCast, one_mul]
      | toEven =>
        show |((if q % 2 = 0 then q else q + 1 : Int) : ℚ) - (q + 1 / 2)| = 1 / 2 ∧
          (if q % 2 = 0 then q else q + 1) % 2 = 0
        split
        · next he => exact ⟨by rw [show (q : ℚ) - (q + 1 / 2) = -(1 / 2) by ring, abs_neg]; norm_num, he⟩
        · next he =>
          refine ⟨?_, by omega⟩
          push_cast
          rw [show (q : ℚ) + 1 - (q + 1 / 2) = 1 / 2 by ring]
          norm_num

/-- Rounding an integer leaves it, whatever the tie rule is (R111). -/
theorem roundsTo_intCast (tie : RoundTie) (k v : Int) (h : RoundsTo tie (k : ℚ) v) : v = k := by
  unfold RoundsTo at h
  rw [Int.fract_intCast, if_neg (by norm_num)] at h
  have h2 : |(v - k : ℚ)| < 1 := by linarith
  have h3 : |v - k| < 1 := by exact_mod_cast h2
  have := Int.abs_lt_one_iff.mp h3
  omega

/-- The fields of the pattern of an integer over a power of two, up to 32 significant bits (R113). -/
theorem encode64_fields (k : Int) (sf : Nat) (h0 : k ≠ 0) (hk : k.natAbs < 2 ^ 32) (hsf : sf ≤ 16) :
    encode64 k sf / 2 ^ 63 % 2 = (if k < 0 then 1 else 0) ∧
    encode64 k sf / 2 ^ 52 % 2 ^ 11 = 1023 + k.natAbs.log2 - sf ∧
    encode64 k sf % 2 ^ 52 = (k.natAbs - 2 ^ k.natAbs.log2) * 2 ^ (52 - k.natAbs.log2) := by
  have hn : k.natAbs ≠ 0 := by omega
  have htop : k.natAbs.log2 < 32 := (Nat.log2_lt hn).mpr hk
  have hge := Nat.log2_self_le hn
  have hlt := Nat.lt_log2_self (n := k.natAbs)
  have hfrac : (k.natAbs - 2 ^ k.natAbs.log2) * 2 ^ (52 - k.natAbs.log2) < 2 ^ 52 := by
    calc (k.natAbs - 2 ^ k.natAbs.log2) * 2 ^ (52 - k.natAbs.log2) <
          2 ^ k.natAbs.log2 * 2 ^ (52 - k.natAbs.log2) :=
          Nat.mul_lt_mul_of_pos_right (by rw [Nat.pow_succ] at hlt; omega) (Nat.two_pow_pos _)
      _ = 2 ^ 52 := by rw [← Nat.pow_add]; congr 1; omega
  unfold encode64
  rw [if_neg h0]
  dsimp only
  generalize (k.natAbs - 2 ^ k.natAbs.log2) * 2 ^ (52 - k.natAbs.log2) = f at *
  generalize k.natAbs.log2 = top at *
  split <;> omega

/-- `encode64` is the pattern of exactly the integer over the power of two, and it is finite (R111, R113). -/
theorem value64_encode64 (k : Int) (sf : Nat) (hk : k.natAbs < 2 ^ 32) (hsf : sf ≤ 16) :
    encode64 k sf / 2 ^ 52 % 2 ^ 11 ≠ 2047 ∧ value64 (encode64 k sf) = (k : ℚ) / 2 ^ sf := by
  by_cases h0 : k = 0
  · subst h0
    simp [encode64, value64]
  obtain ⟨hs, he, hf⟩ := encode64_fields k sf h0 hk hsf
  have hn : k.natAbs ≠ 0 := by omega
  have htop : k.natAbs.log2 < 32 := (Nat.log2_lt hn).mpr hk
  have hge := Nat.log2_self_le hn
  refine ⟨by rw [he]; omega, ?_⟩
  have hsign : (if encode64 k sf / 2 ^ 63 % 2 = 0 then (1 : ℚ) else -1) = if k < 0 then -1 else 1 := by
    rw [hs]
    by_cases hneg : k < 0 <;> simp [hneg]
  unfold value64
  rw [hsign, he, hf]
  have hz : (2 : ℚ) ^ (((1023 + k.natAbs.log2 - sf : Nat) : Int) - 1023) = 2 ^ k.natAbs.log2 / 2 ^ sf := by
    rw [show ((1023 + k.natAbs.log2 - sf : Nat) : Int) - 1023 = (k.natAbs.log2 : Int) - (sf : Int) by omega,
      zpow_sub₀ (by norm_num), zpow_natCast, zpow_natCast]
  rw [hz, if_neg (show ¬ 1023 + k.natAbs.log2 - sf = 0 by omega)]
  have h52 : (2 : ℚ) ^ 52 = 2 ^ k.natAbs.log2 * 2 ^ (52 - k.natAbs.log2) := by
    rw [← pow_add]; congr 1; omega
  have hcast : (((k.natAbs - 2 ^ k.natAbs.log2) * 2 ^ (52 - k.natAbs.log2) : Nat) : ℚ) =
      ((k.natAbs : ℚ) - 2 ^ k.natAbs.log2) * 2 ^ (52 - k.natAbs.log2) := by
    rw [Nat.cast_mul, Nat.cast_sub hge]
    push_cast
    rfl
  have hm : (1 + (((k.natAbs - 2 ^ k.natAbs.log2) * 2 ^ (52 - k.natAbs.log2) : Nat) : ℚ) / 2 ^ 52) *
      2 ^ k.natAbs.log2 = k.natAbs := by
    rw [hcast, h52]
    field_simp
    ring
  rw [← mul_div_assoc, hm]
  rw [Nat.cast_natAbs]
  by_cases hneg : k < 0
  · rw [if_pos hneg, abs_of_neg hneg]
    push_cast
    ring
  · rw [if_neg hneg, abs_of_nonneg (by omega), one_mul]

/-- A pattern fits in its 8 bytes (R42). -/
theorem encode64_lt (k : Int) (sf : Nat) (hk : k.natAbs < 2 ^ 32) (hsf : sf ≤ 16) :
    encode64 k sf < 256 ^ 8 := by
  by_cases h0 : k = 0
  · subst h0; simp [encode64]
  have hn : k.natAbs ≠ 0 := by omega
  have htop : k.natAbs.log2 < 32 := (Nat.log2_lt hn).mpr hk
  have hlt := Nat.lt_log2_self (n := k.natAbs)
  have hfrac : (k.natAbs - 2 ^ k.natAbs.log2) * 2 ^ (52 - k.natAbs.log2) < 2 ^ 52 := by
    calc (k.natAbs - 2 ^ k.natAbs.log2) * 2 ^ (52 - k.natAbs.log2) <
          2 ^ k.natAbs.log2 * 2 ^ (52 - k.natAbs.log2) :=
          Nat.mul_lt_mul_of_pos_right (by rw [Nat.pow_succ] at hlt; omega) (Nat.two_pow_pos _)
      _ = 2 ^ 52 := by rw [← Nat.pow_add]; congr 1; omega
  unfold encode64
  rw [if_neg h0]
  dsimp only
  generalize (k.natAbs - 2 ^ k.natAbs.log2) * 2 ^ (52 - k.natAbs.log2) = f at *
  generalize k.natAbs.log2 = top at *
  split <;> omega

end Sys2Proof.Machine
end

