-- ==== Sys2Proof/Machine/Script.lean ====
section
/-! DEFINITION. The script lines and pseudo-commands of 30_encoding.md (R68, R69), as lists of host steps. -/

namespace Sys2Proof.Machine

/-- `SET <slot>.<n>, <value>` (R68). -/
def scriptSet (slot : Slot) (n v : Nat) : HostStep := .set slot.offset n v

/-- `GET <slot>.<n>` (R68). -/
def scriptGet (slot : Slot) (n : Nat) : HostStep := .get slot.offset n

/-- `<MNEMONIC>.<SUFFIX>` (R68). -/
def scriptCommand (i : Instr) : HostStep := .command (encode i)

/-- The byte count of a command's suffix (R63, R69). -/
def suffixBytes (i : Instr) : Nat := 2 ^ selField (encode i)

/-- `<OP>.<SUFFIX> a, b` (R69). -/
def pseudoBinary (i : Instr) (a b : Nat) : List HostStep :=
  [scriptSet .a (suffixBytes i) a, scriptSet .b (suffixBytes i) b, scriptCommand i]

/-- `<OP>.<SUFFIX> a`, for `MSB`, `NEG`, `FXDEC`, `FDEC` (R69). -/
def pseudoUnary (i : Instr) (a : Nat) : List HostStep :=
  [scriptSet .a (suffixBytes i) a, scriptCommand i]

/-- `FXENC.<SUFFIX> x`, with the 8-byte pattern of `x` (R69). -/
def pseudoFxenc (i : Instr) (x : Nat) : List HostStep := [scriptSet .x 8 x, scriptCommand i]

/-- `FASM.<SUFFIX> e, m`: the operands are container words (R69). -/
def pseudoFasm (i : Instr) (e m : Nat) : List HostStep :=
  [scriptSet .a 4 e, scriptSet .b 4 m, scriptCommand i]

/-- `MOV <dst>.<n>, <src>.<n>` (R69): `read` is the value the host gets from the first of the two steps (log 20). -/
def pseudoMov (dst src : Slot) (n read : Nat) : List HostStep := [scriptGet src n, scriptSet dst n read]

end Sys2Proof.Machine
end

