-- ==== Sys2Proof/Tests/Slice0.lean ====
section
/-! SUPPORT. The model's own tests: words decoded, well-formedness checks that refuse, the spec's vectors
(95_test_vectors.md, 96_test_vectors_float.md), and a witness for the hypotheses of every statement. -/

set_option Elab.async false

namespace Sys2Proof.Tests

open Sys2Proof.Machine Sys2Proof.Claims

/-! ## Decoding: every row's word, written out as R61 lays it out (`zero`, `sel`, `op`) -/

theorem test_decode_integer_words :
    decode 0b00000010#8 = .instr .addW8 ∧
    decode 0b00000011#8 = .instr .negW8 ∧
    decode 0b00000100#8 = .instr .subW8 ∧
    decode 0b00000101#8 = .instr .mulW8 ∧
    decode 0b00000110#8 = .instr .divW8 ∧
    decode 0b00010010#8 = .instr .addW16 ∧
    decode 0b00010011#8 = .instr .negW16 ∧
    decode 0b00010100#8 = .instr .subW16 ∧
    decode 0b00010101#8 = .instr .mulW16 ∧
    decode 0b00010110#8 = .instr .divW16 ∧
    decode 0b00100010#8 = .instr .addW32 ∧
    decode 0b00100011#8 = .instr .negW32 ∧
    decode 0b00100100#8 = .instr .subW32 ∧
    decode 0b00100101#8 = .instr .mulW32 ∧
    decode 0b00100110#8 = .instr .divW32 := by decide

theorem test_decode_fixed_words :
    decode 0b00000111#8 = .instr .fxencW8 ∧
    decode 0b00001000#8 = .instr .fxdecW8 ∧
    decode 0b00001001#8 = .instr .fxdivW8 ∧
    decode 0b00010111#8 = .instr .fxencW16 ∧
    decode 0b00011000#8 = .instr .fxdecW16 ∧
    decode 0b00011001#8 = .instr .fxdivW16 ∧
    decode 0b00100111#8 = .instr .fxencW32 ∧
    decode 0b00101000#8 = .instr .fxdecW32 ∧
    decode 0b00101001#8 = .instr .fxdivW32 := by decide

theorem test_decode_float_words :
    decode 0b00011010#8 = .instr .fdecF16 ∧
    decode 0b00011011#8 = .instr .fasmF16 ∧
    decode 0b00011100#8 = .instr .faddF16 ∧
    decode 0b00011101#8 = .instr .fsubF16 ∧
    decode 0b00011110#8 = .instr .fmulF16 ∧
    decode 0b00011111#8 = .instr .fdivF16 ∧
    decode 0b00101010#8 = .instr .fdecF32 ∧
    decode 0b00101011#8 = .instr .fasmF32 ∧
    decode 0b00101100#8 = .instr .faddF32 ∧
    decode 0b00101101#8 = .instr .fsubF32 ∧
    decode 0b00101110#8 = .instr .fmulF32 ∧
    decode 0b00101111#8 = .instr .fdivF32 := by decide

theorem test_decode_scanner_words :
    decode 0b00100000#8 = .instr .cmpmagW32 ∧
    decode 0b00100001#8 = .instr .msbW32 := by decide

theorem test_decode_illegal_words :
    decode 0x00#8 = .illegal .widthNotOffered ∧ decode 0x01#8 = .illegal .widthNotOffered ∧
    decode 0x0A#8 = .illegal .widthNotOffered ∧ decode 0x0F#8 = .illegal .widthNotOffered ∧
    decode 0x10#8 = .illegal .widthNotOffered ∧ decode 0x11#8 = .illegal .widthNotOffered ∧
    decode 0x30#8 = .illegal .selReserved ∧ decode 0x3F#8 = .illegal .selReserved ∧
    decode 0x42#8 = .illegal .zeroFieldSet ∧ decode 0xA2#8 = .illegal .zeroFieldSet ∧
    decode 0xFF#8 = .illegal .zeroFieldSet := by decide

theorem test_decode_table_word :
    decodeTableWord 8 0x26 = some .divW32 ∧ decodeTableWord 8 0x30 = none ∧ decodeTableWord 16 0x26 = none := by
  decide

/-! ## Well-formedness: a term each check refuses -/

theorem test_host_width_refused :
    (HostStep.set 0 3 0).wellFormed = false ∧ (HostStep.get 0 0).wellFormed = false := by decide

theorem test_host_range_refused :
    (HostStep.set 29 4 0).wellFormed = false ∧ (HostStep.get 32 1).wellFormed = false ∧
    (HostStep.get 28 4).wellFormed = true := by decide

theorem test_status_write_refused : (HostStep.writeStatus 0#8).wellFormed = false := by decide

theorem test_fields_refused :
    legalFields 1 2 0 = false ∧ legalFields 0 3 2 = false ∧ legalFields 0 1 1 = false ∧
    legalFields 0 0 1 = false ∧ legalFields 0 0 10 = false ∧ legalFields 0 0 9 = true := by decide

theorem every_command_is_wellFormed (i : Instr) : i.wellFormed = true := by cases i <;> decide

/-! ## One command on a small state -/

/-- After reset, with `n`-byte operands in `A` and `B`, a known word in `R` and `R2`, and `COND` at 4. -/
def operands (n a b : Nat) : State :=
  { State.reset with
    v := Memory.write (Memory.write (Memory.write (Memory.write [] 0 n a) 4 n b) 8 4 0xAABBCCDD) 12 4 0x11223344
    cond := .illegalCommand }

/-- After reset, with the 8-byte pattern in `X` and a known word in `R`. -/
def rational (x : Nat) : State :=
  { State.reset with v := Memory.write (Memory.write [] 16 8 x) 8 4 0xAABBCCDD, cond := .illegalCommand }

/-- `COND` and one value of `V` after the command. -/
def after (i : Instr) (s : State) (off n : Nat) : Option (Condition × Nat) :=
  match exec i s with
  | .next t => some (t.cond, t.memRead off n)
  | _ => none

/-- What is left of the replies and the script after one step. -/
def replied (s : State) : Option (List HostReply × List HostStep) :=
  match step s with
  | .next t => some (t.replies, t.script)
  | _ => none

/-- 95_test_vectors.md 2.3. -/
theorem test_cmpmag_less : after .cmpmagW32 (operands 4 0x7 0x9) 8 4 = some (.none, 0x2) := by decide +kernel

/-- 95_test_vectors.md 2.3. -/
theorem test_cmpmag_top_bit_is_magnitude : after .cmpmagW32 (operands 4 0x80000000 0x7FFFFFFF) 8 4 = some (.none, 0x1) := by decide +kernel

/-- 95_test_vectors.md 2.3. -/
theorem test_msb_middle : after .msbW32 (operands 4 0x12345 0x0) 8 4 = some (.none, 0x10000) := by decide +kernel

/-- 95_test_vectors.md 2.3. -/
theorem test_msb_of_zero : after .msbW32 (operands 4 0x0 0x0) 8 4 = some (.none, 0x0) := by decide +kernel

/-- 95_test_vectors.md 2.4. -/
theorem test_add_w8_overflows : after .addW8 (operands 1 0x7F 0x1) 8 1 = some (.none, 0x80) := by decide +kernel

/-- 95_test_vectors.md 2.4. -/
theorem test_add_w16_carry_lost : after .addW16 (operands 2 0xFFFF 0x1) 8 2 = some (.none, 0x0) := by decide +kernel

/-- 95_test_vectors.md 2.4. -/
theorem test_add_w32_carry_chain : after .addW32 (operands 4 0xDEADBEEF 0x1234) 8 4 = some (.none, 0xDEADD123) := by decide +kernel

/-- 95_test_vectors.md 2.4. -/
theorem test_neg_w8_of_min : after .negW8 (operands 1 0x80 0x0) 8 1 = some (.none, 0x80) := by decide +kernel

/-- 95_test_vectors.md 2.4. -/
theorem test_neg_w16 : after .negW16 (operands 2 0x1234 0x0) 8 2 = some (.none, 0xEDCC) := by decide +kernel

/-- 95_test_vectors.md 2.4. -/
theorem test_neg_w32 : after .negW32 (operands 4 0x7 0x0) 8 4 = some (.none, 0xFFFFFFF9) := by decide +kernel

/-- 95_test_vectors.md 2.4. -/
theorem test_sub_w8_order : after .subW8 (operands 1 0xF9 0x2) 8 1 = some (.none, 0xF7) := by decide +kernel

/-- 95_test_vectors.md 2.4. -/
theorem test_sub_w16_order : after .subW16 (operands 2 0x7 0xFFFE) 8 2 = some (.none, 0x9) := by decide +kernel

/-- R93. -/
theorem test_sub_w32_order : after .subW32 (operands 4 0x5 0x7) 8 4 = some (.none, 0xFFFFFFFE) := by decide +kernel

/-- 95_test_vectors.md 2.4. -/
theorem test_mul_w8_wraps : after .mulW8 (operands 1 0x64 0x3) 8 1 = some (.none, 0x2C) := by decide +kernel

/-- 95_test_vectors.md 2.4. -/
theorem test_mul_w16 : after .mulW16 (operands 2 0x1234 0x56) 8 2 = some (.none, 0x1D78) := by decide +kernel

/-- 95_test_vectors.md 2.4. -/
theorem test_mul_w32_signed : after .mulW32 (operands 4 0x7 0xFFFFFFFD) 8 4 = some (.none, 0xFFFFFFEB) := by decide +kernel

/-- 95_test_vectors.md 2.4. -/
theorem test_div_w8 : after .divW8 (operands 1 0xF9 0x2) 8 1 = some (.none, 0xFD) ∧
    after .divW8 (operands 1 0xF9 0x2) 12 1 = some (.none, 0xFF) := by decide +kernel

/-- 95_test_vectors.md 2.4. -/
theorem test_div_w16 : after .divW16 (operands 2 0x7 0xFFFE) 8 2 = some (.none, 0xFFFD) ∧
    after .divW16 (operands 2 0x7 0xFFFE) 12 2 = some (.none, 0x1) := by decide +kernel

/-- 95_test_vectors.md 2.4. -/
theorem test_div_w32 : after .divW32 (operands 4 0x80000000 0x3) 8 4 = some (.none, 0xD5555556) ∧
    after .divW32 (operands 4 0x80000000 0x3) 12 4 = some (.none, 0xFFFFFFFE) := by decide +kernel

/-- 95_test_vectors.md 2.4. Conflict C6. -/
theorem test_div_w32_min_by_power_of_two : after .divW32 (operands 4 0x80000000 0x2) 8 4 = some (.none, 0xC0000000) := by decide +kernel

/-- 95_test_vectors.md 2.7. -/
theorem test_div_w8_zero_keeps_result : after .divW8 (operands 4 0x7 0xFFFFFF00) 8 4 = some (.divideByZero, 0xAABBCCDD) := by decide +kernel

/-- 95_test_vectors.md 2.5. -/
theorem test_fxenc_w8_wraps : after .fxencW8 (rational 0x4020000000000000) 8 1 = some (.none, 0x80) := by decide +kernel

/-- 95_test_vectors.md 2.5. -/
theorem test_fxenc_w16_rounds_up : after .fxencW16 (rational 0x3F847AE147AE147B) 8 2 = some (.none, 0x3) := by decide +kernel

/-- 95_test_vectors.md 2.5. -/
theorem test_fxenc_w32_negative : after .fxencW32 (rational 0xC00921F9F01B866E) 8 4 = some (.none, 0xFFFCDBC1) := by decide +kernel

/-- 95_test_vectors.md 2.5. -/
theorem test_fxenc_w32_huge_and_tiny : after .fxencW32 (rational 0x7E37E43C8800759C) 8 4 = some (.none, 0x0) ∧
    after .fxencW32 (rational 0x00000000000007E8) 8 4 = some (.none, 0x0) := by decide +kernel

/-- 95_test_vectors.md 2.5. -/
theorem test_fxenc_not_finite : after .fxencW8 (rational 0x7FF0000000000001) 8 4 = some (.invalidOperand, 0xAABBCCDD) := by decide +kernel

/-- 95_test_vectors.md 2.5. The ties -0.5, -1.5 and 0.5. -/
theorem test_round_half_by_tie_rule : 
    roundInt .towardPosInf (-1) 1 = 0 ∧ roundInt .awayFromZero (-1) 1 = -1 ∧ roundInt .toEven (-1) 1 = 0 ∧
    roundInt .towardPosInf (-3) 1 = -1 ∧ roundInt .awayFromZero (-3) 1 = -2 ∧ roundInt .toEven (-3) 1 = -2 ∧
    roundInt .towardPosInf 1 1 = 1 ∧ roundInt .awayFromZero 1 1 = 1 ∧ roundInt .toEven 1 1 = 0 := by decide +kernel

/-- 95_test_vectors.md 2.5. -/
theorem test_fxdec_w8_min : after .fxdecW8 (operands 1 0x80 0x0) 24 8 = some (.none, 0xC020000000000000) := by decide +kernel

/-- 95_test_vectors.md 2.5. -/
theorem test_fxdec_w16 : after .fxdecW16 (operands 2 0xFFFF 0x0) 24 8 = some (.none, 0xBF70000000000000) := by decide +kernel

/-- 95_test_vectors.md 2.5. -/
theorem test_fxdec_w32 : after .fxdecW32 (operands 4 0x7FFFFFFF 0x0) 24 8 = some (.none, 0x40DFFFFFFFC00000) := by decide +kernel

/-- 95_test_vectors.md 2.5. -/
theorem test_fxdec_zero : after .fxdecW32 (operands 4 0x0 0x0) 24 8 = some (.none, 0x0) := by decide +kernel

/-- 95_test_vectors.md 2.5. -/
theorem test_fxdiv_w8_truncates_to_zero : after .fxdivW8 (operands 1 0xFF 0x20) 8 1 = some (.none, 0x0) := by decide +kernel

/-- 95_test_vectors.md 2.5. -/
theorem test_fxdiv_w16_wraps : after .fxdivW16 (operands 2 0x500 0x3) 8 2 = some (.none, 0xAAAA) := by decide +kernel

/-- 95_test_vectors.md 2.5. -/
theorem test_fxdiv_w32 : after .fxdivW32 (operands 4 0xFF9C0000 0x70000) 8 4 = some (.none, 0xFFF1B6DC) := by decide +kernel

/-- 95_test_vectors.md 2.5. -/
theorem test_fxdiv_w32_outside_domain : after .fxdivW32 (operands 4 0x60000000 0x50000000) 8 4 = some (.none, 0x7FFFFFFF) ∧
    after .fxdivW32 (operands 4 0x80000000 0x10000) 8 4 = some (.none, 0x0) := by decide +kernel

/-- 95_test_vectors.md 2.7. -/
theorem test_fxdiv_w16_zero : after .fxdivW16 (operands 4 0x100 0x0) 8 4 = some (.degenerateDivisor, 0xAABBCCDD) := by decide +kernel

/-- 96_test_vectors_float.md. -/
theorem test_fdec_f16 : after .fdecF16 (operands 2 0xFFFF 0x0) 8 4 = some (.none, 0x1F) ∧
    after .fdecF16 (operands 2 0xFFFF 0x0) 12 4 = some (.none, 0xFFFFF801) := by decide +kernel

/-- 96_test_vectors_float.md. -/
theorem test_fdec_f32 : after .fdecF32 (operands 4 0xBFC00000 0x0) 8 4 = some (.none, 0x7F) ∧
    after .fdecF32 (operands 4 0xBFC00000 0x0) 12 4 = some (.none, 0xFF400000) := by decide +kernel

/-- 96_test_vectors_float.md. -/
theorem test_fasm_f16_shifts_right : after .fasmF16 (operands 4 0xF 0x80000000) 8 2 = some (.none, 0x9000) := by decide +kernel

/-- 96_test_vectors_float.md. -/
theorem test_fasm_f16_exponent_escapes : after .fasmF16 (operands 4 0x20 0x400) 8 2 = some (.none, 0x8000) := by decide +kernel

/-- 96_test_vectors_float.md. -/
theorem test_fasm_f32_shifts_left : after .fasmF32 (operands 4 0x7F 0xFFFFFFFF) 8 4 = some (.none, 0xB4000000) := by decide +kernel

/-- 96_test_vectors_float.md. -/
theorem test_fasm_f32_zero_mantissa : after .fasmF32 (operands 4 0xFF 0x0) 8 4 = some (.none, 0x0) := by decide +kernel

/-- 96_test_vectors_float.md. -/
theorem test_fadd_f16_zero_pattern : after .faddF16 (operands 2 0x3E00 0x8000) 8 2 = some (.none, 0x3DFF) := by decide +kernel

/-- 96_test_vectors_float.md. -/
theorem test_fadd_f32_shifted_out_negative : after .faddF32 (operands 4 0x4B800000 0xBF800000) 8 4 = some (.none, 0x4B7FFFFE) := by decide +kernel

/-- 96_test_vectors_float.md. Decision D16. -/
theorem test_fadd_f32_long_alignment : after .faddF32 (operands 4 0x50000000 0x3F800000) 8 4 = some (.none, 0x50000000) := by decide +kernel

/-- 96_test_vectors_float.md. -/
theorem test_fsub_f16 : after .fsubF16 (operands 2 0x3C00 0x1400) 8 2 = some (.none, 0x3BFE) := by decide +kernel

/-- 96_test_vectors_float.md. -/
theorem test_fsub_f32 : after .fsubF32 (operands 4 0x40200000 0x3FC00000) 8 4 = some (.none, 0x3F800000) := by decide +kernel

/-- 96_test_vectors_float.md. -/
theorem test_fmul_f16 : after .fmulF16 (operands 2 0x4248 0x4248) 8 2 = some (.none, 0x48EE) := by decide +kernel

/-- 96_test_vectors_float.md. Conflict C1. -/
theorem test_fmul_f32_loses_high_bits : after .fmulF32 (operands 4 0x3F8CCCCD 0x3F8CCCCD) 8 4 = some (.none, 0xB7B80000) ∧
    after .fmulF32 (operands 4 0x3FC00000 0x40200000) 8 4 = some (.none, 0x0) := by decide +kernel

/-- 96_test_vectors_float.md. -/
theorem test_fdiv_f16 : after .fdivF16 (operands 2 0xC500 0x4000) 8 2 = some (.none, 0xC100) := by decide +kernel

/-- 96_test_vectors_float.md. -/
theorem test_fdiv_f32_truncates : after .fdivF32 (operands 4 0x40200000 0x3FC00000) 8 4 = some (.none, 0x3FD55554) ∧
    after .fdivF32 (operands 4 0x40A00000 0x0) 8 4 = some (.none, 0x80200000) := by decide +kernel

/-! ## Host steps -/

/-- 95_test_vectors.md 2.1: little-endian, misaligned reads allowed. -/
theorem test_little_endian :
    (Memory.byteAt? (Memory.write [] 0 4 0x11223344) 0, Memory.byteAt? (Memory.write [] 0 4 0x11223344) 3) =
      (some 0x44#8, some 0x11#8) ∧
    replied { State.reset with v := Memory.write [] 0 4 0x11223344, script := [.get 1 2] } =
      some ([.value 0x2233], []) := by decide +kernel

/-- 95_test_vectors.md 2.1: `HostGet(0x1D, 4)` stops. -/
theorem test_get_past_the_end_stops : replied { State.reset with script := [.get 0x1D 4] } = none := by
  decide +kernel

/-- R51: an 8-bit result changes one byte of `R`. -/
theorem test_mixed_widths : after .addW8 (operands 1 2 3) 8 4 = some (.none, 0xAABBCC05) := by decide +kernel

/-- R155: an illegal byte reaches `STATUS` as code 4 and stays in `CMD`. -/
theorem test_illegal_byte_reports :
    (match Sys2Proof.core.run 3 { State.reset with script := [.command 0x36#8, .readStatus, .readCommand] } with
      | .next t => decide (t.replies = [.status 4#8, .command 0x36#8])
      | _ => false) = true := by decide +kernel

/-- R69: `DIV.W32 7, 2` as host steps; the quotient and remainder of scenario S1. -/
theorem test_pseudo_command :
    (match Sys2Proof.core.run 5
        { State.reset with script := pseudoBinary .divW32 7 2 ++ [scriptGet .r 4, scriptGet .r2 4] } with
      | .next t => decide (t.replies = [.value 3, .value 1])
      | _ => false) = true := by decide +kernel

/-- R69: `MOV` reads the source, then writes what was read. -/
theorem test_pseudo_mov :
    (match Sys2Proof.core.run 3
        { State.reset with script := .set 8 2 0xFFEB :: pseudoMov .a .r 2 0xFFEB } with
      | .next t => decide (t.replies = [.value 0xFFEB] ∧ t.memRead 0 2 = 0xFFEB)
      | _ => false) = true := by decide +kernel

/-- The fetch the host checks with: a command placed after reset is the next step. -/
theorem test_with_fetch_word :
    (State.reset.withFetchWord 8 0x22).script = [.command 0x22#8] ∧
    step (State.reset.withFetchWord 8 0x22) = exec .addW32 { State.reset with cmd := 0x22#8 } := by
  exact ⟨by decide, rfl⟩

/-! ## A witness for the hypotheses of each statement -/

/-- A state with one host step to take. -/
def scripted (h : List HostStep) : State := { State.reset with script := h }

theorem witness_ResetStepClearsRegistersAndBuffer : (scripted [.reset]).script = .reset :: [] := rfl

theorem witness_EveryStepKeepsBufferCanonical :
    (scripted [.set 31 1 5]).Inv ∧ ∃ t, step (scripted [.set 31 1 5]) = .next t := ⟨by decide, _, rfl⟩

theorem witness_StepRunsTheDecodedCommand :
    (scripted [.command 0x2F#8]).script = .command 0x2F#8 :: [] ∧ decode 0x2F#8 = .instr .fdivF32 := by decide

theorem witness_IllegalByteRaisesIllegalCommand :
    ∀ c ∈ [0x00#8, 0x0A#8, 0x11#8, 0x30#8, 0x3F#8, 0x40#8, 0xFF#8],
      legalFields (c.toNat / 64) (c.toNat / 16 % 4) (c.toNat % 16) = false := by decide

theorem witness_DecodeOfEncodeIsTheCommand : Instr.addW8.wellFormed = true ∧ Instr.cmpmagW32.wellFormed = true := by
  decide

theorem witness_EncodeOfDecodeIsTheWord : decode 0x09#8 = .instr .fxdivW8 := by decide

/-- The divisors 1, the largest and the smallest signed value, at each width. -/
theorem witness_nonzero_divisors :
    (∀ b ∈ [0x01, 0x7F, 0x80, 0xFF], (operands 1 0x80 b).memRead 4 1 ≠ 0) ∧
    (∀ b ∈ [0x0001, 0x7FFF, 0x8000, 0xFFFF], (operands 2 0x8000 b).memRead 4 2 ≠ 0) ∧
    (∀ b ∈ [0x00000001, 0x7FFFFFFF, 0x80000000, 0xFFFFFFFF], (operands 4 0x80000000 b).memRead 4 4 ≠ 0) := by
  decide +kernel

theorem witness_DivDeliversTruncatedQuotientAndRemainder :
    (operands 1 0x80 0xFF).memRead 4 1 ≠ 0 ∧ (operands 2 0x8000 0xFFFF).memRead 4 2 ≠ 0 ∧
    (operands 4 0x80000000 0xFFFFFFFF).memRead 4 4 ≠ 0 := by decide +kernel

/-- Also with bytes above the width that are not zero (R151). -/
theorem witness_DivByZeroRaisesDivideByZero :
    (operands 4 7 0xFFFFFF00).memRead 4 1 = 0 ∧ (operands 4 7 0xFFFF0000).memRead 4 2 = 0 ∧
    (operands 4 7 0).memRead 4 4 = 0 := by decide +kernel

theorem witness_DivideWordRebuildsTheDividend : (0x80000000#32 : Word) ≠ 0#32 ∧ (0xFFFFFFFF#32 : Word) ≠ 0#32 := by
  decide

/-- Zero, a subnormal, the largest finite pattern, and a negative one. -/
theorem witness_FxencDeliversNearestScaledInteger :
    ∀ x ∈ [0x0000000000000000, 0x00000000000007E8, 0x7FEFFFFFFFFFFFFF, 0xC004000000000000],
      (rational x).memRead 16 8 / 2 ^ 52 % 2 ^ 11 ≠ 2047 := by decide +kernel

/-- Both infinities and a not-a-number. -/
theorem witness_FxencOfNonFiniteRaisesInvalidOperand :
    ∀ x ∈ [0x7FF0000000000000, 0xFFF0000000000000, 0x7FF0000000000001],
      (rational x).memRead 16 8 / 2 ^ 52 % 2 ^ 11 = 2047 := by decide +kernel

theorem witness_FxencOfFxdecIsTheWord :
    (∃ t, exec .fxdecW8 (operands 1 0x80 0) = .next t ∧ (rational 0xC020000000000000).memRead 16 8 = t.memRead 24 8) ∧
    (∃ t, exec .fxdecW16 (operands 2 0xFFFF 0) = .next t ∧
      (rational 0xBF70000000000000).memRead 16 8 = t.memRead 24 8) ∧
    (∃ t, exec .fxdecW32 (operands 4 0x7FFFFFFF 0) = .next t ∧
      (rational 0x40DFFFFFFFC00000).memRead 16 8 = t.memRead 24 8) :=
  ⟨⟨_, rfl, by decide +kernel⟩, ⟨_, rfl, by decide +kernel⟩, ⟨_, rfl, by decide +kernel⟩⟩

theorem witness_FxdivByZeroRaisesDegenerateDivisor :
    (operands 1 0x10 0).memRead 4 1 = 0 ∧ (operands 2 0x100 0).memRead 4 2 = 0 ∧
    (operands 4 0x10000 0).memRead 4 4 = 0 := by decide +kernel

theorem witness_FxdivNarrowDeliversTruncatedQuotient :
    (operands 1 0x80 0x80).memRead 4 1 ≠ 0 ∧ (operands 2 0x7FFF 1).memRead 4 2 ≠ 0 := by decide +kernel

/-- The largest divisor magnitude of the domain, and a quotient just below `2^31`. -/
theorem witness_FxdivWideDeliversTruncatedQuotientOnSoundDomain :
    ∀ p ∈ [(0x7FFFFFFF, 0x00010000), (0x80000001, 0x40000000), (0x00000000, 0xC0000000), (0x00000001, 0xFFFFFFFF)],
      (signedOf 4 ((operands 4 p.1 p.2).memRead 0 4)).natAbs < 2 ^ 31 ∧
      1 ≤ (signedOf 4 ((operands 4 p.1 p.2).memRead 4 4)).natAbs ∧
      (signedOf 4 ((operands 4 p.1 p.2).memRead 4 4)).natAbs ≤ 2 ^ 30 ∧
      (signedOf 4 ((operands 4 p.1 p.2).memRead 0 4)).natAbs * 2 ^ 16 /
        (signedOf 4 ((operands 4 p.1 p.2).memRead 4 4)).natAbs < 2 ^ 31 := by decide +kernel

/-- Each of the two named operand pairs, and neither. -/
theorem witness_FxdivWideReturnsForEveryDivisor :
    (∀ p ∈ [(0x80000000, 0x00010000), (0x00010000, 0x7FFFFFFF), (5, 3)],
      (operands 4 p.1 p.2).memRead 0 4 = p.1 ∧ (operands 4 p.1 p.2).memRead 4 4 = p.2) := by decide +kernel

theorem witness_FasmOfFdecIsThePattern :
    (∃ t, exec .fdecF16 (operands 2 0x8000 0) = .next t ∧
      (operands 4 0x00000000 0xFFFFFC00).memRead 0 4 = t.memRead 8 4 ∧
      (operands 4 0x00000000 0xFFFFFC00).memRead 4 4 = t.memRead 12 4) ∧
    (∃ t, exec .fdecF32 (operands 4 0xFFFFFFFF 0) = .next t ∧
      (operands 4 0x000000FF 0xFF000001).memRead 0 4 = t.memRead 8 4 ∧
      (operands 4 0x000000FF 0xFF000001).memRead 4 4 = t.memRead 12 4) :=
  ⟨⟨_, rfl, by decide +kernel⟩, ⟨_, rfl, by decide +kernel⟩⟩

theorem witness_FaddIsCommutative :
    (∃ t t', exec .faddF16 (operands 2 0x3E00 0x8000) = .next t ∧ exec .faddF16 (operands 2 0x8000 0x3E00) = .next t') ∧
    (∃ t t', exec .faddF32 (operands 4 0x3F800000 0xBF800000) = .next t ∧
      exec .faddF32 (operands 4 0xBF800000 0x3F800000) = .next t') ∧
    (operands 2 0x8000 0x3E00).memRead 0 2 = (operands 2 0x3E00 0x8000).memRead 4 2 ∧
    (operands 2 0x8000 0x3E00).memRead 4 2 = (operands 2 0x3E00 0x8000).memRead 0 2 ∧
    (operands 4 0xBF800000 0x3F800000).memRead 0 4 = (operands 4 0x3F800000 0xBF800000).memRead 4 4 ∧
    (operands 4 0xBF800000 0x3F800000).memRead 4 4 = (operands 4 0x3F800000 0xBF800000).memRead 0 4 :=
  ⟨⟨_, _, rfl, rfl⟩, ⟨_, _, rfl, rfl⟩, by decide +kernel⟩

theorem witness_CommandWritesOnlyItsResultSlots :
    ∃ t, exec .divW8 (operands 1 7 2) = .next t ∧ ¬ inRanges (resultRanges .divW8) 9 ∧
      ¬ inRanges (resultRanges .divW8) 13 :=
  ⟨_, rfl, by unfold inRanges; decide, by unfold inRanges; decide⟩

/-- Two states that agree on the operand bytes and differ elsewhere. -/
theorem witness_ResultDependsOnlyOnOperandBytes :
    (∀ a, inRanges (operandRanges .addW8) a → (operands 1 2 3).byteAt a = (operands 4 0x902 0x803).byteAt a) ∧
    operands 1 2 3 ≠ operands 4 0x902 0x803 ∧ (∃ t, exec .addW8 (operands 4 0x902 0x803) = .next t ∧ t.cond = .none) ∧
    ∃ t', exec .addW8 (operands 1 2 3) = .next t' := by
  refine ⟨?_, by decide +kernel, ⟨_, rfl, rfl⟩, _, rfl⟩
  rintro a ⟨p, hp, h1, h2⟩
  simp only [operandRanges, List.mem_cons, List.not_mem_nil, or_false] at hp
  rcases hp with rfl | rfl
  · have : a = 0 := by simp only at h1 h2; omega
    subst this
    decide +kernel
  · have : a = 4 := by simp only at h1 h2; omega
    subst this
    decide +kernel

theorem witness_CommandRaisesOnlyItsOwnCondition : ∃ t, exec .fxencW8 (rational 0) = .next t := ⟨_, rfl⟩

theorem witness_FailingCommandChangesOnlyCond :
    (∃ t, hostCommand 0x00#8 (operands 1 7 0) = .next t ∧ t.cond ≠ .none) ∧
    (∃ t, hostCommand 0x06#8 (operands 1 7 0) = .next t ∧ t.cond ≠ .none) ∧
    (∃ t, exec .divW8 (operands 1 7 0) = .next t ∧ t.cond ≠ .none) ∧
    (∃ t, exec .fxdivW16 (operands 2 7 0) = .next t ∧ t.cond ≠ .none) ∧
    ∃ t, exec .fxencW32 (rational 0x7FF0000000000000) = .next t ∧ t.cond ≠ .none :=
  ⟨⟨_, rfl, by decide +kernel⟩, ⟨_, rfl, by decide +kernel⟩, ⟨_, rfl, by decide +kernel⟩, ⟨_, rfl, by decide +kernel⟩,
    ⟨_, rfl, by decide +kernel⟩⟩

theorem witness_EveryCommandByteCompletes : (scripted [.command 0xFF#8]).script = .command 0xFF#8 :: [] := rfl

theorem witness_CmdReadsBackTheWrittenByte :
    (scripted [.command 0x02#8, .readCommand]).script = .command 0x02#8 :: .readCommand :: [] := rfl

theorem witness_StatusReturnsTheConditionCode : (scripted [.readStatus]).script = .readStatus :: [] := rfl

/-- Each width, at the two ends of the buffer. -/
theorem witness_host_accesses :
    ∀ p ∈ [(0, 1), (31, 1), (0, 2), (30, 2), (1, 4), (28, 4), (0, 8), (24, 8)],
      (p.2 = 1 ∨ p.2 = 2 ∨ p.2 = 4 ∨ p.2 = 8) ∧ p.1 + p.2 ≤ 32 := by decide

theorem witness_HostSetStoresLittleEndianBytes :
    (scripted [.set 28 4 7]).script = .set 28 4 7 :: [] ∧ HostCanAccess 28 4 := ⟨rfl, by unfold HostCanAccess; decide⟩

theorem witness_HostGetReturnsLittleEndianValue :
    (scripted [.get 24 8]).script = .get 24 8 :: [] ∧ HostCanAccess 24 8 := ⟨rfl, by unfold HostCanAccess; decide⟩

theorem witness_HostGetSeesTheLatestHostSet :
    (scripted [.set 31 1 300, .get 31 1]).script = .set 31 1 300 :: .get 31 1 :: [] ∧ HostCanAccess 31 1 :=
  ⟨rfl, by unfold HostCanAccess; decide⟩

/-- One past the last offset of each width, and the widths next to the allowed ones. -/
theorem witness_ForbiddenHostAccessStops :
    (∀ p ∈ [(32, 1), (31, 2), (29, 4), (25, 8)], (p.2 = 1 ∨ p.2 = 2 ∨ p.2 = 4 ∨ p.2 = 8) ∧ 32 < p.1 + p.2) ∧
    (∀ n ∈ [0, 3, 5, 7, 9], ¬ (n = 1 ∨ n = 2 ∨ n = 4 ∨ n = 8)) ∧
    (scripted [.writeStatus 0#8]).script = .writeStatus 0#8 :: [] := by decide

theorem witness_IdleBlockStaysAsItIs : State.reset.script = [] := rfl

theorem witness_WellFormedScriptNeverStops :
    (scripted [.set 0 1 2, .get 31 1, .command 0x00#8, .readStatus, .readCommand, .reset]).scriptWellFormed := by
  decide

theorem witness_StepKeepsWellFormedScriptAndNeverStops :
    (scripted []).scriptWellFormed ∧ (scripted [.get 24 8, .command 0xFF#8]).scriptWellFormed := by
  decide

/-- The least word at 8 bits, a negative one at 16 and the greatest at 32, as rationals. -/
theorem witness_FxdecOfFxencIsTheRational_values :
    value64 0xC020000000000000 = ((-128 : Int) : ℚ) / 2 ^ 4 ∧ value64 0xBF70000000000000 = ((-1 : Int) : ℚ) / 2 ^ 8 ∧
    value64 0x40DFFFFFFFC00000 = ((2147483647 : Int) : ℚ) / 2 ^ 16 := by
  norm_num [value64]

theorem witness_FxdecOfFxencIsTheRational_states :
    (∃ t, (rational 0xC020000000000000).memRead 16 8 = 0xC020000000000000 ∧
      exec .fxencW8 (rational 0xC020000000000000) = .next t ∧ (operands 1 0x80 0).memRead 0 1 = t.memRead 8 1) ∧
    (∃ t, (rational 0xBF70000000000000).memRead 16 8 = 0xBF70000000000000 ∧
      exec .fxencW16 (rational 0xBF70000000000000) = .next t ∧ (operands 2 0xFFFF 0).memRead 0 2 = t.memRead 8 2) ∧
    ∃ t, (rational 0x40DFFFFFFFC00000).memRead 16 8 = 0x40DFFFFFFFC00000 ∧
      exec .fxencW32 (rational 0x40DFFFFFFFC00000) = .next t ∧
      (operands 4 0x7FFFFFFF 0).memRead 0 4 = t.memRead 8 4 :=
  ⟨⟨_, by decide +kernel, rfl, by decide +kernel⟩, ⟨_, by decide +kernel, rfl, by decide +kernel⟩,
    ⟨_, by decide +kernel, rfl, by decide +kernel⟩⟩

/-- One state per width meets all the hypotheses together. -/
theorem witness_FxdecOfFxencIsTheRational :
    (∃ t, (rational 0xC020000000000000).memRead 16 8 / 2 ^ 52 % 2 ^ 11 ≠ 2047 ∧
      value64 ((rational 0xC020000000000000).memRead 16 8) = ((-128 : Int) : ℚ) / 2 ^ 4 ∧
      -256 ^ 1 ≤ 2 * (-128 : Int) ∧ 2 * (-128 : Int) < 256 ^ 1 ∧
      exec .fxencW8 (rational 0xC020000000000000) = .next t ∧ (operands 1 0x80 0).memRead 0 1 = t.memRead 8 1) ∧
    (∃ t, (rational 0xBF70000000000000).memRead 16 8 / 2 ^ 52 % 2 ^ 11 ≠ 2047 ∧
      value64 ((rational 0xBF70000000000000).memRead 16 8) = ((-1 : Int) : ℚ) / 2 ^ 8 ∧
      -256 ^ 2 ≤ 2 * (-1 : Int) ∧ 2 * (-1 : Int) < 256 ^ 2 ∧
      exec .fxencW16 (rational 0xBF70000000000000) = .next t ∧ (operands 2 0xFFFF 0).memRead 0 2 = t.memRead 8 2) ∧
    ∃ t, (rational 0x40DFFFFFFFC00000).memRead 16 8 / 2 ^ 52 % 2 ^ 11 ≠ 2047 ∧
      value64 ((rational 0x40DFFFFFFFC00000).memRead 16 8) = ((2147483647 : Int) : ℚ) / 2 ^ 16 ∧
      -256 ^ 4 ≤ 2 * (2147483647 : Int) ∧ 2 * (2147483647 : Int) < 256 ^ 4 ∧
      exec .fxencW32 (rational 0x40DFFFFFFFC00000) = .next t ∧
      (operands 4 0x7FFFFFFF 0).memRead 0 4 = t.memRead 8 4 := by
  obtain ⟨⟨t1, a1, b1, c1⟩, ⟨t2, a2, b2, c2⟩, ⟨t3, a3, b3, c3⟩⟩ := witness_FxdecOfFxencIsTheRational_states
  obtain ⟨v1, v2, v3⟩ := witness_FxdecOfFxencIsTheRational_values
  rw [a1, a2, a3]
  exact ⟨⟨t1, by decide, v1, by decide, by decide, b1, c1⟩, ⟨t2, by decide, v2, by decide, by decide, b2, c2⟩,
    ⟨t3, by decide, v3, by decide, by decide, b3, c3⟩⟩

end Sys2Proof.Tests
end

section
/-! PROOFS. The bit_scanner's two commands (40_scanner.md): the words they deliver as naturals, and O11 and O12. -/

open Sys2Proof Sys2Proof.Machine Sys2Proof.Claims

namespace Sys2Proof.ScannerProofs

/-- At four bytes nothing of a container word is cut off on delivery (R44). -/
theorem delivers_put_container (s : State) (w : Word) (v : Nat) (h : w.toNat = v) :
    Delivers s (complete (put s.v .r 4 w) s) [(8, 4, v)] :=
  delivers_put_eq s 4 w v (by rw [← h]; exact Nat.mod_eq_of_lt w.isLt)

theorem compareMagnitude_code_toNat (a b : Word) :
    (compareMagnitude a b).code.toNat = if a.toNat = b.toNat then 0 else if b.toNat < a.toNat then 1 else 2 := by
  rw [compareMagnitude_eq]
  split_ifs <;> rfl

theorem exec_cmpmagW32_delivers (s : State) :
    ∃ t, exec .cmpmagW32 s = .next t ∧ Delivers s t [(8, 4,
      if s.memRead 0 4 = s.memRead 4 4 then 0 else if s.memRead 4 4 < s.memRead 0 4 then 1 else 2)] := by
  have ha : (getU s .a 4).toNat = s.memRead 0 4 := getU_toNat s .a 4 (le_refl _)
  have hb : (getU s .b 4).toNat = s.memRead 4 4 := getU_toNat s .b 4 (le_refl _)
  refine ⟨_, rfl, delivers_put_container s _ _ ?_⟩
  rw [compareMagnitude_code_toNat, ha, hb]

/-- With the zero word included, unlike `mostSignificantSetBit_toNat`. -/
theorem mostSignificantSetBit_toNat_eq_ite (a : Word) :
    (mostSignificantSetBit a).toNat = if a.toNat = 0 then 0 else 2 ^ a.toNat.log2 := by
  split_ifs with h
  · have ha : a = 0#32 := BitVec.eq_of_toNat_eq h
    rw [mostSignificantSetBit_eq, if_pos ha]
    rfl
  · exact mostSignificantSetBit_toNat a (ne_zero_of_toNat_pos (Nat.pos_of_ne_zero h))

theorem exec_msbW32_delivers (s : State) :
    ∃ t, exec .msbW32 s = .next t ∧
      Delivers s t [(8, 4, if s.memRead 0 4 = 0 then 0 else 2 ^ (s.memRead 0 4).log2)] := by
  have ha : (getU s .a 4).toNat = s.memRead 0 4 := getU_toNat s .a 4 (le_refl _)
  refine ⟨_, rfl, delivers_put_container s _ _ ?_⟩
  rw [mostSignificantSetBit_toNat_eq_ite, ha]

/-- Settles O11: the scan of R80 compares the two words as naturals (`compareMagnitude_eq`), and zero extension keeps
the naturals in `A` and `B`. -/
theorem cmpmagDeliversUnsignedOrder : Obligations.CmpmagDeliversUnsignedOrder :=
  ⟨by decide, exec_cmpmagW32_delivers⟩

/-- Settles O12: the scan of R81 stops at the highest set bit (`mostSignificantSetBit_eq`), or finds none in the zero
word. -/
theorem msbDeliversHighestSetBit : Obligations.MsbDeliversHighestSetBit :=
  ⟨by decide, exec_msbW32_delivers⟩

end Sys2Proof.ScannerProofs
end

section
/-! PROOFS. The integer engine's `ADD`, `NEG`, `SUB` and `MUL` (41_integer.md): the container words agree with the
delivered naturals modulo `256^n`, whatever the sign extension at intake put above, and O13 to O16. -/

open Sys2Proof Sys2Proof.Machine Sys2Proof.Claims

namespace Sys2Proof.IntegerProofs

theorem widthBytes_pos (w : Width) : 0 < widthBytes w := by cases w <;> decide

/-- Reduction to a command's width goes through the reduction to the container. -/
theorem pow_widthBytes_dvd (w : Width) : 256 ^ widthBytes w ∣ 2 ^ 32 := by cases w <;> decide

theorem getS_mod_widthBytes (s : State) (slot : Slot) (w : Width) :
    (getS s slot (widthBytes w)).toNat % 256 ^ widthBytes w = s.memRead slot.offset (widthBytes w) :=
  getS_toNat_mod s slot _ (widthBytes_pos w) (widthBytes_le w)

theorem addWord_toNat_mod {M : Nat} (hM : M ∣ 2 ^ 32) (a b : Word) :
    (addWord a b).toNat % M = (a.toNat % M + b.toNat % M) % M := by
  rw [addWord_eq_add, BitVec.toNat_add, Nat.mod_mod_of_dvd _ hM, Nat.add_mod]

theorem multiplyWord_toNat_mod {M : Nat} (hM : M ∣ 2 ^ 32) (a b : Word) :
    (multiplyWord a b).toNat % M = a.toNat % M * (b.toNat % M) % M := by
  rw [multiplyWord_eq_mul, BitVec.toNat_mul, Nat.mod_mod_of_dvd _ hM, Nat.mul_mod]

/-- Both sides, with the subtrahend added back, are the minuend modulo `M`. -/
theorem subtractWord_toNat_mod {M : Nat} (hM : M ∣ 2 ^ 32) (a b : Word) :
    (subtractWord a b).toNat % M = (a.toNat % M + M - b.toNat % M) % M := by
  have hb : b.toNat % M < M := Nat.mod_lt _ (Nat.pos_of_dvd_of_pos hM (by decide))
  have hword : addWord (subtractWord a b) b = a := by
    rw [addWord_eq_add, subtractWord_eq_sub, BitVec.sub_add_cancel]
  refine Nat.ModEq.add_right_cancel' (b.toNat % M) ?_
  calc ((subtractWord a b).toNat + b.toNat % M) % M
      = (addWord (subtractWord a b) b).toNat % M := by rw [addWord_toNat_mod hM, Nat.add_mod, Nat.mod_mod]
    _ = (a.toNat % M + M) % M := by rw [hword, Nat.add_mod_right, Nat.mod_mod]
    _ = (a.toNat % M + M - b.toNat % M + b.toNat % M) % M := by rw [Nat.sub_add_cancel (by omega)]

/-- A negation is the difference from zero. -/
theorem negateWord_toNat_mod {M : Nat} (hM : M ∣ 2 ^ 32) (a : Word) :
    (negateWord a).toNat % M = (M - a.toNat % M) % M := by
  have h0 : negateWord a = subtractWord 0#32 a := by
    rw [negateWord_eq_neg, subtractWord_eq_sub, BitVec.zero_sub]
  have hzero : (0#32 : Word).toNat % M = 0 := Nat.zero_mod M
  rw [h0, subtractWord_toNat_mod hM, hzero, Nat.zero_add]

/-- A command of two operands delivers `g` of the operand bytes when its word function, cut to the width, is `g` of
its cut arguments (R43, R44). -/
theorem deliversBinary_of_exec {i : Instr} {f : Word → Word → Word} {g : Nat → Nat → Nat} (w : Width)
    (he : ∀ s, exec i s = .next (binaryCommand f w s))
    (hf : ∀ a b, (f a b).toNat % 256 ^ widthBytes w =
      g (a.toNat % 256 ^ widthBytes w) (b.toNat % 256 ^ widthBytes w)) :
    DeliversBinary i (widthBytes w) g := fun s => by
  refine ⟨_, he s, delivers_put_eq s _ _ _ ?_⟩
  rw [hf, getS_mod_widthBytes, getS_mod_widthBytes]
  rfl

theorem addsAt_of_exec {i : Instr} (w : Width) (he : ∀ s, exec i s = .next (binaryCommand addWord w s)) :
    AddsAt i (widthBytes w) :=
  deliversBinary_of_exec w he (addWord_toNat_mod (pow_widthBytes_dvd w))

theorem subtractsAt_of_exec {i : Instr} (w : Width) (he : ∀ s, exec i s = .next (binaryCommand subtractWord w s)) :
    SubtractsAt i (widthBytes w) :=
  deliversBinary_of_exec w he (subtractWord_toNat_mod (pow_widthBytes_dvd w))

theorem multipliesAt_of_exec {i : Instr} (w : Width) (he : ∀ s, exec i s = .next (binaryCommand multiplyWord w s)) :
    MultipliesAt i (widthBytes w) :=
  deliversBinary_of_exec w he (multiplyWord_toNat_mod (pow_widthBytes_dvd w))

theorem negatesAt_of_exec {i : Instr} (w : Width) (he : ∀ s, exec i s = .next (negCommand w s)) :
    NegatesAt i (widthBytes w) := fun s => by
  refine ⟨_, he s, delivers_put_eq s _ _ _ ?_⟩
  rw [negateWord_toNat_mod (pow_widthBytes_dvd w), getS_mod_widthBytes]
  rfl

/-- Settles O13: the ripple-carry loop is addition modulo `2^32` (`addWord_eq_add`), and `2^N` divides `2^32`, so the
copies of the sign bit above the width do not reach the result. -/
theorem addDeliversWrappingSum : Obligations.AddDeliversWrappingSum :=
  ⟨by decide, addsAt_of_exec .w8 fun _ => rfl, addsAt_of_exec .w16 fun _ => rfl, addsAt_of_exec .w32 fun _ => rfl⟩

/-- Settles O14: `NOT` followed by adding one is the difference from zero modulo `2^32`, hence modulo `2^N`. -/
theorem negDeliversWrappingNegation : Obligations.NegDeliversWrappingNegation :=
  ⟨by decide, negatesAt_of_exec .w8 fun _ => rfl, negatesAt_of_exec .w16 fun _ => rfl,
    negatesAt_of_exec .w32 fun _ => rfl⟩

/-- Settles O15: adding the second operand back to the delivered difference gives the first, modulo `2^N`. -/
theorem subDeliversWrappingDifference : Obligations.SubDeliversWrappingDifference :=
  ⟨by decide, subtractsAt_of_exec .w8 fun _ => rfl, subtractsAt_of_exec .w16 fun _ => rfl,
    subtractsAt_of_exec .w32 fun _ => rfl⟩

/-- Settles O16: the shift-and-add loop is multiplication modulo `2^32` (`multiplyWord_eq_mul`), whose low `N` bits
depend on the low `N` bits of the operands only. -/
theorem mulDeliversLowProduct : Obligations.MulDeliversLowProduct :=
  ⟨by decide, multipliesAt_of_exec .w8 fun _ => rfl, multipliesAt_of_exec .w16 fun _ => rfl,
    multipliesAt_of_exec .w32 fun _ => rfl⟩

end Sys2Proof.IntegerProofs
end

section
/-! PROOFS. The float unit's `FDEC` (43_float.md): the two container words it delivers, and O28. -/

open Sys2Proof Sys2Proof.Machine Sys2Proof.Claims

namespace Sys2Proof.FloatProofs

/-- Two result words delivered in `R` and `R2`, with the low bytes of each named (R44). -/
theorem delivers_put_put_eq (s : State) {n : Nat} (hn : n ≤ 4) (q r : Word) {x y : Nat}
    (hq : q.toNat % 256 ^ n = x) (hr : r.toNat % 256 ^ n = y) :
    Delivers s (complete (put (put s.v .r n q) .r2 n r) s) [(8, n, x), (12, n, y)] :=
  hq ▸ hr ▸ delivers_put_put s n hn q r

/-- Zero extension at intake keeps the pattern that `decompose` reads (R43, R126). -/
theorem decompose_getU {F : FloatFormat} {n mw : Nat} (hF : HasLayout F n mw) (s : State) (slot : Slot) :
    decompose F (getU s slot F.bytes) =
      (BitVec.ofNat 32 (exponentOf n mw (s.memRead slot.offset n)), word (mantissaOf n mw (s.memRead slot.offset n))) := by
  rw [decompose_eq hF, hF.bytes_eq, getU_toNat s slot n hF.bytes_le]

/-- The exponent field fits its container word, so the four delivered bytes hold all of it (R44). -/
theorem exponentOf_container_mod {F : FloatFormat} {n mw : Nat} (hF : HasLayout F n mw) (x : Nat) :
    (BitVec.ofNat 32 (exponentOf n mw x)).toNat % 256 ^ 4 = exponentOf n mw x := by
  have hfit : exponentOf n mw x < 2 ^ 32 := exponentOf_lt_word hF x
  rw [BitVec.toNat_ofNat, Nat.mod_eq_of_lt hfit]
  exact Nat.mod_eq_of_lt hfit

theorem fdecCommand_delivers {F : FloatFormat} {n mw : Nat} (hF : HasLayout F n mw) (s : State) :
    Delivers s (fdecCommand F s)
      [(8, 4, exponentOf n mw (s.memRead 0 n)), (12, 4, lowBytes 4 (mantissaOf n mw (s.memRead 0 n)))] := by
  rw [fdecCommand, decompose_getU hF]
  exact delivers_put_put_eq s (le_refl 4) _ _ (exponentOf_container_mod hF _) (lowBytes_word 4 (le_refl 4) _)

theorem decomposesAt_of_exec {i : Instr} {F : FloatFormat} {n mw : Nat} (hF : HasLayout F n mw)
    (hexec : ∀ s, exec i s = .next (fdecCommand F s)) : DecomposesAt i n mw :=
  fun s => ⟨_, hexec s, fdecCommand_delivers hF s⟩

/-- Settles O28: `decompose` reads the exponent field and the signed mantissa of the pattern in `A`
(`decompose_getU`), and both fit a container word. -/
theorem fdecDeliversExponentAndSignedMantissa : Obligations.FdecDeliversExponentAndSignedMantissa :=
  ⟨by decide, decomposesAt_of_exec f16_hasLayout fun _ => rfl, decomposesAt_of_exec f32_hasLayout fun _ => rfl⟩

end Sys2Proof.FloatProofs
end

section
/-! PROOFS. Commands that raise a condition (60_exceptions.md): `DIV` with a zero divisor, what a write of `CMD` can
do, and O18 and O39. -/

open Sys2Proof Sys2Proof.Machine Sys2Proof.Claims

namespace Sys2Proof.ExceptionProofs

theorem divCommand_zero_divisor (w : Width) (s : State) (hb : getS s .b (widthBytes w) = 0#32) :
    divCommand w s = raise .divideByZero s := by
  rw [divCommand, hb, divideWord_eq, if_pos rfl]

/-- The command looks at the container word; that word is zero when the divisor's own bytes are, whatever lies above
them in slot `B` (`getS_eq_zero_iff`). -/
theorem raisesOnZeroDivisor_of_exec {i : Instr} (w : Width) (hexec : ∀ s, exec i s = .next (divCommand w s)) :
    RaisesOnZeroDivisor i (widthBytes w) .divideByZero := fun s hzero => by
  have hb : getS s .b (widthBytes w) = 0#32 :=
    (getS_eq_zero_iff s .b _ (IntegerProofs.widthBytes_pos w) (widthBytes_le w)).mpr hzero
  rw [hexec, divCommand_zero_divisor w s hb]
  rfl

/-- Everything a write of `CMD` can do: a legal byte runs its command, and an illegal one raises `IllegalCommand`, in
both cases with the byte already in `CMD` (R60, R65). -/
theorem hostCommand_next_cases {c : Byte} {s t : State} (h : hostCommand c s = .next t) :
    (∃ i, decode c = .instr i ∧ Ends i { s with cmd := c } t) ∨
      (∃ why, decode c = .illegal why) ∧ t = raise .illegalCommand { s with cmd := c } := by
  unfold hostCommand at h
  split at h
  · next i hdecode => exact .inl ⟨i, hdecode, ends_of_exec h⟩
  · next why hdecode =>
    cases h
    exact .inr ⟨⟨why, hdecode⟩, rfl⟩

theorem hostCommand_of_cond {c : Byte} {s t : State} (h : hostCommand c s = .next t) (hcond : t.cond ≠ .none) :
    t = { s with cmd := c, cond := t.cond } := by
  obtain ⟨i, -, hends⟩ | ⟨-, rfl⟩ := hostCommand_next_cases h
  · exact hends.of_cond hcond
  · rfl

/-- Settles O18: the divisor's container word is zero exactly when its bytes are, and then `divideWord` has no value
(R95), so the command raises before it delivers anything. -/
theorem divByZeroRaisesDivideByZero : Obligations.DivByZeroRaisesDivideByZero :=
  ⟨raisesOnZeroDivisor_of_exec .w8 fun _ => rfl, raisesOnZeroDivisor_of_exec .w16 fun _ => rfl,
    raisesOnZeroDivisor_of_exec .w32 fun _ => rfl⟩

/-- Settles O39: a command either completes with condition `NONE` or raises one and touches nothing else
(`Ends.of_cond`); a write of `CMD` stores the byte first. -/
theorem failingCommandChangesOnlyCond : Obligations.FailingCommandChangesOnlyCond :=
  ⟨fun _ _ _ => hostCommand_of_cond, fun _ _ _ h => (ends_of_exec h).of_cond⟩

end Sys2Proof.ExceptionProofs
end

section
/-! PROOFS. The state after reset (70_reset_and_hazards.md): the byte `STATUS` while no condition stands, and O1. -/

open Sys2Proof Sys2Proof.Machine

namespace Sys2Proof.ResetProofs

/-- `NONE` has code 0, and bits 7 to 3 of `STATUS` read zero (R23). -/
theorem status_of_cond_none {s : State} (h : s.cond = .none) : s.status = 0x00#8 := by
  rw [State.status, h]
  rfl

/-- Settles O1: reset gives `CMD` and `COND` their values and leaves the written bytes of `V` empty, so `STATUS` reads
zero (`status_of_cond_none`) and every offset of `V` is unwritten (`byteAt?_nil`). -/
theorem resetZeroesRegistersAndLeavesBufferUnwritten :
    Obligations.ResetZeroesRegistersAndLeavesBufferUnwritten :=
  ⟨rfl, status_of_cond_none rfl, rfl, byteAt?_nil⟩

end Sys2Proof.ResetProofs
end

section
/-! PROOFS. What every command keeps to (10_state.md sections 1, 2 and 5, 60_exceptions.md sections 1 and 2): its
result slots, its operand bytes, its own condition, and O36, O37, O38 and O40. -/

open Sys2Proof Sys2Proof.Machine Sys2Proof.Claims

namespace Sys2Proof.CommandProofs

/-- An update of `V` after which the bytes of the ranges no longer depend on what `V` held. -/
def FixesBytes (ranges : List (Nat × Nat)) (f : Memory → Memory) : Prop :=
  ∀ a, inRanges ranges a → ∃ b, ∀ m, Memory.byteAt? (f m) a = some b

/-- From `s` and from `u` the command did the same: one update of `V` that fixes the bytes of the ranges, or one
condition. -/
def SameEffect (ranges : List (Nat × Nat)) (s u t t' : State) : Prop :=
  (∃ f, FixesBytes ranges f ∧ t = complete (f s.v) s ∧ t' = complete (f u.v) u) ∨
    ∃ c, c ≠ .none ∧ t = raise c s ∧ t' = raise c u

theorem inRanges_cons_iff (p : Nat × Nat) (ranges : List (Nat × Nat)) (a : Nat) :
    inRanges (p :: ranges) a ↔ (p.1 ≤ a ∧ a < p.1 + p.2) ∨ inRanges ranges a := by
  simp [inRanges]

theorem not_inRanges_nil (a : Nat) : ¬ inRanges [] a := by simp [inRanges]

theorem fixesBytes_id : FixesBytes [] id := fun a ha => absurd ha (not_inRanges_nil a)

/-- A further write fixes its own bytes, and keeps the fixed bytes it does not touch. -/
theorem FixesBytes.write {ranges : List (Nat × Nat)} {f : Memory → Memory} (hf : FixesBytes ranges f) (off n v : Nat) :
    FixesBytes ((off, n) :: ranges) fun m => Memory.write (f m) off n v := by
  intro a ha
  by_cases hin : off ≤ a ∧ a < off + n
  · exact ⟨BitVec.ofNat 8 (v / 256 ^ (a - off)), fun m => by rw [byteAt?_write, if_pos hin]⟩
  · have hrest : inRanges ranges a := ((inRanges_cons_iff _ _ _).mp ha).resolve_left hin
    obtain ⟨b, hb⟩ := hf a hrest
    exact ⟨b, fun m => by rw [byteAt?_write, if_neg hin, hb]⟩

theorem FixesBytes.swap {p q : Nat × Nat} {f : Memory → Memory} (hf : FixesBytes [q, p] f) : FixesBytes [p, q] f := by
  intro a ha
  simp only [inRanges_cons_iff] at ha
  refine hf a ?_
  simp only [inRanges_cons_iff]
  exact or_left_comm.mp ha

theorem sameEffect_write (s u : State) (off n v : Nat) :
    SameEffect [(off, n)] s u (complete (Memory.write s.v off n v) s) (complete (Memory.write u.v off n v) u) :=
  .inl ⟨_, fixesBytes_id.write off n v, rfl, rfl⟩

theorem sameEffect_put (s u : State) (n : Nat) (w : Word) :
    SameEffect [(8, n)] s u (complete (put s.v .r n w) s) (complete (put u.v .r n w) u) :=
  sameEffect_write s u 8 n w.toNat

theorem sameEffect_put_put (s u : State) (n : Nat) (q r : Word) :
    SameEffect [(8, n), (12, n)] s u (complete (put (put s.v .r n q) .r2 n r) s)
      (complete (put (put u.v .r n q) .r2 n r) u) :=
  .inl ⟨fun m => put (put m .r n q) .r2 n r,
    ((fixesBytes_id.write 8 n q.toNat).write 12 n r.toNat).swap, rfl, rfl⟩

section

variable {s u : State}

/-- The two states agree on the bytes of the ranges. -/
def Agree (ranges : List (Nat × Nat)) (s u : State) : Prop := ∀ a, inRanges ranges a → u.byteAt a = s.byteAt a

theorem Agree.memRead {ranges : List (Nat × Nat)} (h : Agree ranges s u) {off n : Nat} (hmem : (off, n) ∈ ranges) :
    u.memRead off n = s.memRead off n :=
  memRead_congr fun a h1 h2 => h a ⟨_, hmem, h1, h2⟩

theorem Agree.getS {ranges : List (Nat × Nat)} (h : Agree ranges s u) {slot : Slot} {n : Nat}
    (hmem : (slot.offset, n) ∈ ranges) : getS u slot n = getS s slot n :=
  getS_congr fun a h1 h2 => h a ⟨_, hmem, h1, h2⟩

theorem Agree.getU {ranges : List (Nat × Nat)} (h : Agree ranges s u) {slot : Slot} {n : Nat}
    (hmem : (slot.offset, n) ∈ ranges) : getU u slot n = getU s slot n :=
  getU_congr fun a h1 h2 => h a ⟨_, hmem, h1, h2⟩

/-- Slot `A` comes first in every list of operand ranges that has it. -/
theorem mem_slotA (n : Nat) (rest : List (Nat × Nat)) : (Slot.a.offset, n) ∈ (0, n) :: rest := List.mem_cons_self

theorem mem_slotB (n : Nat) : (Slot.b.offset, n) ∈ [(0, n), (4, n)] := List.mem_cons_of_mem _ List.mem_cons_self

theorem binaryCommand_sameEffect (f : Word → Word → Word) (w : Width)
    (h : Agree [(0, widthBytes w), (4, widthBytes w)] s u) :
    SameEffect [(8, widthBytes w)] s u (binaryCommand f w s) (binaryCommand f w u) := by
  rw [binaryCommand, binaryCommand, h.getS (mem_slotA _ _), h.getS (mem_slotB _)]
  exact sameEffect_put s u _ _

theorem negCommand_sameEffect (w : Width) (h : Agree [(0, widthBytes w)] s u) :
    SameEffect [(8, widthBytes w)] s u (negCommand w s) (negCommand w u) := by
  rw [negCommand, negCommand, h.getS (mem_slotA _ _)]
  exact sameEffect_put s u _ _

theorem divCommand_sameEffect (w : Width) (h : Agree [(0, widthBytes w), (4, widthBytes w)] s u) :
    SameEffect [(8, widthBytes w), (12, widthBytes w)] s u (divCommand w s) (divCommand w u) := by
  rw [divCommand, divCommand, h.getS (mem_slotA _ _), h.getS (mem_slotB _)]
  cases divideWord (Machine.getS s .a (widthBytes w)) (Machine.getS s .b (widthBytes w)) with
  | none => exact .inr ⟨_, by decide, rfl, rfl⟩
  | some qr => exact sameEffect_put_put s u _ _ _

theorem fxencCommand_sameEffect (w : Width) (h : Agree [(16, 8)] s u) :
    SameEffect [(8, widthBytes w)] s u (fxencCommand w s) (fxencCommand w u) := by
  have hx : u.memRead Slot.x.offset 8 = s.memRead Slot.x.offset 8 := h.memRead List.mem_cons_self
  unfold fxencCommand
  dsimp only
  rw [hx]
  split
  · exact sameEffect_put s u _ _
  · exact .inr ⟨_, by decide, rfl, rfl⟩

theorem fxdecCommand_sameEffect (w : Width) (h : Agree [(0, widthBytes w)] s u) :
    SameEffect [(24, 8)] s u (fxdecCommand w s) (fxdecCommand w u) := by
  rw [fxdecCommand, fxdecCommand, h.getS (mem_slotA _ _)]
  exact sameEffect_write s u 24 8 _

theorem fxdivCommand_sameEffect (w : Width) (h : Agree [(0, widthBytes w), (4, widthBytes w)] s u) :
    SameEffect [(8, widthBytes w)] s u (fxdivCommand w s) (fxdivCommand w u) := by
  rw [fxdivCommand, fxdivCommand, h.getS (mem_slotA _ _), h.getS (mem_slotB _)]
  cases divideFixedPoint (Machine.getS s .a (widthBytes w)) (Machine.getS s .b (widthBytes w)) (scaleFactor w) with
  | none => exact .inr ⟨_, by decide, rfl, rfl⟩
  | some res => exact sameEffect_put s u _ _

theorem fdecCommand_sameEffect (F : FloatFormat) (h : Agree [(0, F.bytes)] s u) :
    SameEffect [(8, 4), (12, 4)] s u (fdecCommand F s) (fdecCommand F u) := by
  rw [fdecCommand, fdecCommand, h.getU (mem_slotA _ _)]
  exact sameEffect_put_put s u 4 _ _

theorem fasmCommand_sameEffect (F : FloatFormat) (h : Agree [(0, 4), (4, 4)] s u) :
    SameEffect [(8, F.bytes)] s u (fasmCommand F s) (fasmCommand F u) := by
  rw [fasmCommand, fasmCommand, h.getS (mem_slotA _ _), h.getS (mem_slotB _)]
  exact sameEffect_put s u _ _

theorem floatCommand_sameEffect (F : FloatFormat) (f : FloatFormat → Word → Word → Word)
    (h : Agree [(0, F.bytes), (4, F.bytes)] s u) :
    SameEffect [(8, F.bytes)] s u (floatCommand F f s) (floatCommand F f u) := by
  rw [floatCommand, floatCommand, h.getU (mem_slotA _ _), h.getU (mem_slotB _)]
  exact sameEffect_put s u _ _

theorem fdivCommand_sameEffect (F : FloatFormat) (h : Agree [(0, F.bytes), (4, F.bytes)] s u) :
    SameEffect [(8, F.bytes)] s u (fdivCommand F s) (fdivCommand F u) := by
  rw [fdivCommand, fdivCommand, h.getU (mem_slotA _ _), h.getU (mem_slotB _)]
  cases floatDivide F (Machine.getU s .a F.bytes) (Machine.getU s .b F.bytes) with
  | none => exact .inr ⟨_, by decide, rfl, rfl⟩
  | some res => exact sameEffect_put s u _ _

theorem execCmpmagW32_sameEffect (h : Agree [(0, 4), (4, 4)] s u) :
    ∃ t t', execCmpmagW32 s = .next t ∧ execCmpmagW32 u = .next t' ∧ SameEffect [(8, 4)] s u t t' := by
  refine ⟨_, _, rfl, rfl, ?_⟩
  rw [h.getU (mem_slotA _ _), h.getU (mem_slotB _)]
  exact sameEffect_put s u _ _

theorem execMsbW32_sameEffect (h : Agree [(0, 4)] s u) :
    ∃ t t', execMsbW32 s = .next t ∧ execMsbW32 u = .next t' ∧ SameEffect [(8, 4)] s u t t' := by
  refine ⟨_, _, rfl, rfl, ?_⟩
  rw [h.getU (mem_slotA _ _)]
  exact sameEffect_put s u _ _

/-- Every command has the same effect from two states that agree on its operand bytes (R30). -/
theorem exec_sameEffect (i : Instr) (h : Agree (operandRanges i) s u) :
    ∃ t t', exec i s = .next t ∧ exec i u = .next t' ∧ SameEffect (resultRanges i) s u t t' := by
  cases i with
  | addW8 => exact ⟨_, _, rfl, rfl, binaryCommand_sameEffect addWord .w8 h⟩
  | negW8 => exact ⟨_, _, rfl, rfl, negCommand_sameEffect .w8 h⟩
  | subW8 => exact ⟨_, _, rfl, rfl, binaryCommand_sameEffect subtractWord .w8 h⟩
  | mulW8 => exact ⟨_, _, rfl, rfl, binaryCommand_sameEffect multiplyWord .w8 h⟩
  | divW8 => exact ⟨_, _, rfl, rfl, divCommand_sameEffect .w8 h⟩
  | fxencW8 => exact ⟨_, _, rfl, rfl, fxencCommand_sameEffect .w8 h⟩
  | fxdecW8 => exact ⟨_, _, rfl, rfl, fxdecCommand_sameEffect .w8 h⟩
  | fxdivW8 => exact ⟨_, _, rfl, rfl, fxdivCommand_sameEffect .w8 h⟩
  | addW16 => exact ⟨_, _, rfl, rfl, binaryCommand_sameEffect addWord .w16 h⟩
  | negW16 => exact ⟨_, _, rfl, rfl, negCommand_sameEffect .w16 h⟩
  | subW16 => exact ⟨_, _, rfl, rfl, binaryCommand_sameEffect subtractWord .w16 h⟩
  | mulW16 => exact ⟨_, _, rfl, rfl, binaryCommand_sameEffect multiplyWord .w16 h⟩
  | divW16 => exact ⟨_, _, rfl, rfl, divCommand_sameEffect .w16 h⟩
  | fxencW16 => exact ⟨_, _, rfl, rfl, fxencCommand_sameEffect .w16 h⟩
  | fxdecW16 => exact ⟨_, _, rfl, rfl, fxdecCommand_sameEffect .w16 h⟩
  | fxdivW16 => exact ⟨_, _, rfl, rfl, fxdivCommand_sameEffect .w16 h⟩
  | fdecF16 => exact ⟨_, _, rfl, rfl, fdecCommand_sameEffect f16 h⟩
  | fasmF16 => exact ⟨_, _, rfl, rfl, fasmCommand_sameEffect f16 h⟩
  | faddF16 => exact ⟨_, _, rfl, rfl, floatCommand_sameEffect f16 floatAdd h⟩
  | fsubF16 => exact ⟨_, _, rfl, rfl, floatCommand_sameEffect f16 floatSubtract h⟩
  | fmulF16 => exact ⟨_, _, rfl, rfl, floatCommand_sameEffect f16 floatMultiply h⟩
  | fdivF16 => exact ⟨_, _, rfl, rfl, fdivCommand_sameEffect f16 h⟩
  | cmpmagW32 => exact execCmpmagW32_sameEffect h
  | msbW32 => exact execMsbW32_sameEffect h
  | addW32 => exact ⟨_, _, rfl, rfl, binaryCommand_sameEffect addWord .w32 h⟩
  | negW32 => exact ⟨_, _, rfl, rfl, negCommand_sameEffect .w32 h⟩
  | subW32 => exact ⟨_, _, rfl, rfl, binaryCommand_sameEffect subtractWord .w32 h⟩
  | mulW32 => exact ⟨_, _, rfl, rfl, binaryCommand_sameEffect multiplyWord .w32 h⟩
  | divW32 => exact ⟨_, _, rfl, rfl, divCommand_sameEffect .w32 h⟩
  | fxencW32 => exact ⟨_, _, rfl, rfl, fxencCommand_sameEffect .w32 h⟩
  | fxdecW32 => exact ⟨_, _, rfl, rfl, fxdecCommand_sameEffect .w32 h⟩
  | fxdivW32 => exact ⟨_, _, rfl, rfl, fxdivCommand_sameEffect .w32 h⟩
  | fdecF32 => exact ⟨_, _, rfl, rfl, fdecCommand_sameEffect f32 h⟩
  | fasmF32 => exact ⟨_, _, rfl, rfl, fasmCommand_sameEffect f32 h⟩
  | faddF32 => exact ⟨_, _, rfl, rfl, floatCommand_sameEffect f32 floatAdd h⟩
  | fsubF32 => exact ⟨_, _, rfl, rfl, floatCommand_sameEffect f32 floatSubtract h⟩
  | fmulF32 => exact ⟨_, _, rfl, rfl, floatCommand_sameEffect f32 floatMultiply h⟩
  | fdivF32 => exact ⟨_, _, rfl, rfl, fdivCommand_sameEffect f32 h⟩

end

/-- A written byte reads as what was written, whatever the free contents of `V` are. -/
theorem byteAt_of_written {s : State} {a : Nat} {b : Byte} (h : Memory.byteAt? s.v a = some b) : s.byteAt a = b := by
  rw [State.byteAt, h]

/-- The same effect leaves the same condition, and the same result bytes where that condition is `NONE`. -/
theorem SameEffect.observed {ranges : List (Nat × Nat)} {s u t t' : State} (h : SameEffect ranges s u t t') :
    t'.cond = t.cond ∧ (t.cond = .none → ∀ a, inRanges ranges a → t'.byteAt a = t.byteAt a) := by
  rcases h with ⟨f, hf, rfl, rfl⟩ | ⟨c, hc, rfl, rfl⟩
  · refine ⟨rfl, fun _ a ha => ?_⟩
    obtain ⟨b, hb⟩ := hf a ha
    rw [byteAt_of_written (s := complete (f u.v) u) (hb u.v), byteAt_of_written (s := complete (f s.v) s) (hb s.v)]
  · exact ⟨rfl, fun h0 => absurd h0 hc⟩

/-- Two states that differ in `COND` only are taken to one state. -/
theorem SameEffect.eq_of_cond {ranges : List (Nat × Nat)} {s t t' : State} {c : Condition}
    (h : SameEffect ranges s { s with cond := c } t t') : t' = t := by
  rcases h with ⟨f, -, rfl, rfl⟩ | ⟨c, -, rfl, rfl⟩ <;> rfl

/-- A command that completed changed no byte outside its result slots, and one that raised changed no byte. -/
theorem ends_frame {i : Instr} {s t : State} (h : Ends i s t) {a : Nat} (ha : ¬ inRanges (resultRanges i) a) :
    Memory.byteAt? t.v a = Memory.byteAt? s.v a := by
  rcases h with ⟨m, -, hframe, rfl⟩ | ⟨c, -, -, rfl⟩
  · exact hframe a ha
  · rfl

/-- Every command may complete (R150). -/
theorem none_mem_possibleConditions (i : Instr) : .none ∈ possibleConditions i := by
  cases i <;> exact List.mem_cons_self

/-- Settles O36: every command ends by completing on its result slots or by raising a condition (`exec_ends`), and
both ends leave the rest alone. -/
theorem commandWritesOnlyItsResultSlots : Obligations.CommandWritesOnlyItsResultSlots := fun _ _ _ h =>
  ⟨(ends_of_exec h).others, fun _ ha => ends_frame (ends_of_exec h) ha⟩

/-- Settles O37: a command reads its operands before it does anything, so from two states that agree on them it does
the same (`exec_sameEffect`). -/
theorem resultDependsOnlyOnOperandBytes : Obligations.ResultDependsOnlyOnOperandBytes := by
  intro i s u t t' hagree ht ht'
  obtain ⟨t₁, t₁', h₁, h₁', hsame⟩ := exec_sameEffect i hagree
  cases ht.symm.trans h₁
  cases ht'.symm.trans h₁'
  exact hsame.observed

/-- Settles O38: a command that completes leaves `NONE`, which the table lists for each, and one that raises leaves a
condition of its own. -/
theorem commandRaisesOnlyItsOwnCondition : Obligations.CommandRaisesOnlyItsOwnCondition := by
  intro i s t h
  rcases ends_of_exec h with ⟨m, -, -, rfl⟩ | ⟨c, hc, -, rfl⟩
  · exact none_mem_possibleConditions i
  · exact hc

/-- Settles O40: `COND` is no operand of any command, and each command sets it. -/
theorem conditionIsNotSticky : Obligations.ConditionIsNotSticky := by
  intro i s c
  obtain ⟨t, t', ht, ht', hsame⟩ := exec_sameEffect (s := s) (u := { s with cond := c }) i fun _ _ => rfl
  rw [ht, ht', hsame.eq_of_cond]

end Sys2Proof.CommandProofs
end

section
/-! PROOFS. What one step of the host or the platform does (10_state.md, 20_memory.md, 70_reset_and_hazards.md): each
host step by an equation of its own, what all of them keep, and O2, O3, O4, O5 and O41 to O51. -/

open Sys2Proof Sys2Proof.Machine Sys2Proof.Claims

namespace Sys2Proof.HostProofs

theorem step_idle {s : State} (h : s.script = []) : step s = .next s := by
  rw [step, nextHostStep, h]

/-- Everything a step can do: it is idle, or it takes the next host step off the script. -/
theorem step_cases {s t : State} (h : step s = .next t) :
    t = s ∨ ∃ hs rest, s.script = hs :: rest ∧ hostStep hs { s with script := rest } = .next t := by
  cases hscript : s.script with
  | nil =>
    rw [step_idle hscript] at h
    cases h
    exact .inl rfl
  | cons hs rest =>
    rw [step_eq s hs rest hscript] at h
    exact .inr ⟨hs, rest, rfl, h⟩

section

variable {off n : Nat}

theorem hostAccess_of_canAccess (h : HostCanAccess off n) (s : State) : hostAccess off n s = .next s :=
  (hostAccess_eq_next_iff off n s s).mpr ⟨h.1, h.2, rfl⟩

theorem hostAccess_noSuchByte (hn : n = 1 ∨ n = 2 ∨ n = 4 ∨ n = 8) (hoff : 32 < off + n) (s : State) :
    hostAccess off n s = .fault (.noSuchByte off n) := by
  rw [hostAccess, if_pos hn, if_neg (show ¬ off + n ≤ bufferSize from not_le.mpr hoff)]

theorem hostAccess_noSuchWidth (hn : ¬ (n = 1 ∨ n = 2 ∨ n = 4 ∨ n = 8)) (s : State) :
    hostAccess off n s = .refused (.noSuchWidth n) := by
  rw [hostAccess, if_neg hn]

theorem hostSet_of_canAccess (h : HostCanAccess off n) (v : Nat) (s : State) :
    hostSet off n v s = .next { s with v := Memory.write s.v off n v } :=
  hostAccess_of_canAccess h _

theorem hostGet_of_canAccess (h : HostCanAccess off n) (s : State) :
    hostGet off n s = .next (reply (.value (s.memRead off n)) s) :=
  hostAccess_of_canAccess h _

theorem step_set {s : State} {v : Nat} {rest : List HostStep} (hscript : s.script = .set off n v :: rest)
    (h : HostCanAccess off n) : step s = .next { s with script := rest, v := Memory.write s.v off n v } :=
  (step_eq s _ rest hscript).trans (hostSet_of_canAccess h v _)

theorem step_get {s : State} {rest : List HostStep} (hscript : s.script = .get off n :: rest)
    (h : HostCanAccess off n) :
    step s = .next { s with script := rest, replies := s.replies ++ [.value (s.memRead off n)] } := by
  rw [step_eq s _ rest hscript, hostStep, hostGet_of_canAccess h,
    memRead_congr (s := s) (t := { s with script := rest }) fun _ _ _ => rfl]
  rfl

/-- The decidable check of a host access says that the block has the bytes and the width. -/
theorem hostCanAccess_iff (off n : Nat) : HostCanAccess off n ↔ (hostWidth n && decide (off + n ≤ 32)) = true := by
  simp [HostCanAccess, hostWidth, or_assoc]

end

/-- A write of `CMD` always answers a next state, with the byte in `CMD` (R60, R176). -/
theorem hostCommand_completes (c : Byte) (s : State) :
    ∃ t, hostCommand c s = .next t ∧ t.cmd = c ∧ t.script = s.script ∧ t.replies = s.replies ∧ t.resets = s.resets := by
  rw [hostCommand]
  cases decode c with
  | instr i =>
    obtain ⟨t, ht, hends⟩ := exec_ends i { s with cmd := c }
    refine ⟨t, ht, ?_⟩
    rw [hends.others]
    exact ⟨rfl, rfl, rfl, rfl⟩
  | illegal why => exact ⟨_, rfl, rfl, rfl, rfl, rfl⟩

theorem hostCommand_wf {c : Byte} {s t : State} (h : hostCommand c s = .next t) (hs : Memory.wf s.v) :
    Memory.wf t.v := by
  obtain ⟨i, -, hends⟩ | ⟨-, rfl⟩ := ExceptionProofs.hostCommand_next_cases h
  · exact hends.wf hs
  · exact hs

theorem memory_nil_wf : Memory.wf [] := ⟨List.Pairwise.nil, fun _ hc => absurd hc List.not_mem_nil⟩

/-- Every host step that answers a next state keeps the canonical form of `V` (log 18). -/
theorem hostStep_wf {h : HostStep} {s t : State} (he : hostStep h s = .next t) (hs : Memory.wf s.v) :
    Memory.wf t.v := by
  cases h with
  | set off n v =>
    obtain ⟨-, hoff, rfl⟩ := (hostAccess_eq_next_iff off n _ t).mp he
    exact write_wf s.v off n v hoff hs
  | get off n =>
    obtain ⟨-, -, rfl⟩ := (hostAccess_eq_next_iff off n _ t).mp he
    exact hs
  | command c => exact hostCommand_wf he hs
  | readStatus => cases he; exact hs
  | readCommand => cases he; exact hs
  | writeStatus v => cases he
  | reset => cases he; exact memory_nil_wf

/-- A host step the model gives a meaning answers a next state and leaves the rest of the script. -/
theorem hostStep_of_wellFormed {h : HostStep} (hwf : h.wellFormed = true) (s : State) :
    ∃ t, hostStep h s = .next t ∧ t.script = s.script := by
  cases h with
  | set off n v => exact ⟨_, hostSet_of_canAccess ((hostCanAccess_iff off n).mpr hwf) v s, rfl⟩
  | get off n => exact ⟨_, hostGet_of_canAccess ((hostCanAccess_iff off n).mpr hwf) s, rfl⟩
  | command c =>
    obtain ⟨t, ht, -, hscript, -⟩ := hostCommand_completes c s
    exact ⟨t, ht, hscript⟩
  | readStatus => exact ⟨_, rfl, rfl⟩
  | readCommand => exact ⟨_, rfl, rfl⟩
  | writeStatus v => cases hwf
  | reset => exact ⟨_, rfl, rfl⟩

/-- Settles O4: a step is idle or a host step, and every host step keeps the form (`hostStep_wf`): `HostSet` writes
inside the 32 bytes, a command's slots lie there, and reset leaves no written byte. -/
theorem everyStepKeepsBufferCanonical : Obligations.EveryStepKeepsBufferCanonical := by
  intro s t hs h
  obtain rfl | ⟨_, _, -, he⟩ := step_cases h
  · exact hs
  · exact hostStep_wf he hs

/-- Settles O50: an empty script is an idle step, and a well-formed host step takes only itself off the script. -/
theorem stepKeepsWellFormedScriptAndNeverStops : Obligations.StepKeepsWellFormedScriptAndNeverStops := by
  intro s hwf
  cases hscript : s.script with
  | nil => exact ⟨s, step_idle hscript, hwf⟩
  | cons h rest =>
    rw [State.scriptWellFormed, hscript] at hwf
    obtain ⟨t, ht, hrest⟩ := hostStep_of_wellFormed (hwf h List.mem_cons_self) { s with script := rest }
    refine ⟨t, (step_eq s h rest hscript).trans ht, ?_⟩
    rw [State.scriptWellFormed, hrest]
    exact fun h' hmem => hwf h' (List.mem_cons_of_mem _ hmem)

theorem run_succ_of_step {M : Host.Core} {s t : M.State} (h : M.step s = .next t) (k : Nat) :
    M.run (k + 1) s = M.run k t := by
  rw [Host.Core.run, h]

/-- Settles O49, by induction on the number of steps with the step lemma O50. -/
theorem wellFormedScriptNeverStops : Obligations.WellFormedScriptNeverStops := by
  intro s k hwf
  induction k generalizing s with
  | zero => exact ⟨s, rfl⟩
  | succ k ih =>
    obtain ⟨t, ht, htwf⟩ := stepKeepsWellFormedScriptAndNeverStops s hwf
    obtain ⟨t', ht'⟩ := ih t htwf
    exact ⟨t', (run_succ_of_step (M := core) ht k).trans ht'⟩

/-- Settles O51: the script of `State.reset` is empty. -/
theorem resetScriptIsWellFormed : Obligations.ResetScriptIsWellFormed := fun _ h => absurd h List.not_mem_nil

/-- Settles O3: no byte of `V` is written after reset. -/
theorem resetBufferIsCanonical : Obligations.ResetBufferIsCanonical := memory_nil_wf

/-- Settles O2: the step is `hostReset` on the state without that host step. -/
theorem resetStepClearsRegistersAndBuffer : Obligations.ResetStepClearsRegistersAndBuffer := by
  intro s rest h
  exact ⟨_, step_eq s _ rest h, rfl, ResetProofs.status_of_cond_none rfl, rfl, byteAt?_nil, rfl, rfl, rfl⟩

/-- Settles O5: the write of `CMD` stores the byte and then runs what it decodes to. -/
theorem stepRunsTheDecodedCommand : Obligations.StepRunsTheDecodedCommand := by
  intro s c i rest h hdecode
  rw [step_eq s _ rest h, hostStep, hostCommand, hdecode]

/-- Settles O41: every byte either runs a command, which ends in a next state, or raises `IllegalCommand`
(`hostCommand_completes`). -/
theorem everyCommandByteCompletes : Obligations.EveryCommandByteCompletes := by
  intro s c rest h
  rw [step_eq s _ rest h]
  exact hostCommand_completes c { s with script := rest }

/-- Settles O42: the write leaves the byte in `CMD` (O41), and the read returns `CMD`. -/
theorem cmdReadsBackTheWrittenByte : Obligations.CmdReadsBackTheWrittenByte := by
  intro s c rest h
  obtain ⟨t, ht, hcmd, hscript, hreplies, -⟩ := everyCommandByteCompletes s c _ h
  refine ⟨t, _, ht, step_eq t _ rest hscript, ?_, rfl⟩
  rw [reply_replies, hreplies, hcmd]

/-- `STATUS` reads as the condition's number (R23, R150). -/
theorem status_eq_conditionNumber (s : State) : s.status = BitVec.ofNat 8 (conditionNumber s.cond) := by
  rw [State.status]
  cases s.cond <;> rfl

/-- Settles O43: `HostStatus` appends `STATUS`, which is the condition's number with upper bits zero. -/
theorem statusReturnsTheConditionCode : Obligations.StatusReturnsTheConditionCode := by
  intro s rest h
  rw [step_eq s _ rest h, ← status_eq_conditionNumber]
  rfl

/-- The recursive read of R41 as the sum of its bytes. -/
theorem memRead_eq_sum (s : State) (off n : Nat) :
    s.memRead off n = ((List.range n).map fun i => (s.byteAt (off + i)).toNat * 256 ^ i).sum := by
  induction n generalizing off with
  | zero => rfl
  | succ n ih =>
    have hscale : ((List.range n).map fun i => (s.byteAt (off + (i + 1))).toNat * 256 ^ (i + 1)).sum =
        256 * ((List.range n).map fun i => (s.byteAt (off + 1 + i)).toNat * 256 ^ i).sum := by
      rw [← List.sum_map_mul_left]
      refine congrArg List.sum (List.map_congr_left fun i _ => ?_)
      rw [show off + (i + 1) = off + 1 + i by omega, Nat.pow_succ]
      ring
    rw [State.memRead, ih, List.range_succ_eq_map, List.map_cons, List.map_map, List.sum_cons, Nat.pow_zero, Nat.mul_one,
      ← hscale]
    rfl

/-- Settles O44: `HostSet` is one write (`hostSet_of_canAccess`), and `byteAt?_write` says what it leaves at every
offset. -/
theorem hostSetStoresLittleEndianBytes : Obligations.HostSetStoresLittleEndianBytes := by
  intro s off n v rest h hacc
  refine ⟨_, step_set h hacc, rfl, fun i hi => ?_, fun a ha => ?_⟩
  · have hbyte : BitVec.ofNat 8 (v / 256 ^ i % 256) = BitVec.ofNat 8 (v / 256 ^ i) :=
      BitVec.eq_of_toNat_eq (by simp)
    rw [byteAt?_write, if_pos (by omega), Nat.add_sub_cancel_left, hbyte]
  · rw [byteAt?_write, if_neg (by omega)]

/-- Settles O45: `HostGet` replies with the read of R41, which is the sum of the bytes (`memRead_eq_sum`). -/
theorem hostGetReturnsLittleEndianValue : Obligations.HostGetReturnsLittleEndianValue := by
  intro s off n rest h hacc
  rw [step_get h hacc, memRead_eq_sum]

/-- Settles O46: the read of the bytes just written returns the value modulo `256^n` (`memRead_write_same`). -/
theorem hostGetSeesTheLatestHostSet : Obligations.HostGetSeesTheLatestHostSet := by
  intro s off n v rest h hacc
  refine ⟨_, _, step_set h hacc, step_get rfl hacc, ?_, rfl⟩
  rw [memRead_write_same _ s.v off n v rfl]

/-- Settles O47: `HostSet` and `HostGet` pass through `hostAccess`, which looks at the width first, and a write of
`STATUS` has no other outcome. -/
theorem forbiddenHostAccessStops : Obligations.ForbiddenHostAccessStops := by
  refine ⟨fun s off n v rest h hn hoff => ?_, fun s off n rest h hn hoff => ?_, fun s off n v rest h hn => ?_,
    fun s off n rest h hn => ?_, fun s v rest h => step_eq s _ rest h⟩
  · exact (step_eq s _ rest h).trans (hostAccess_noSuchByte hn hoff _)
  · exact (step_eq s _ rest h).trans (hostAccess_noSuchByte hn hoff _)
  · exact (step_eq s _ rest h).trans (hostAccess_noSuchWidth hn _)
  · exact (step_eq s _ rest h).trans (hostAccess_noSuchWidth hn _)

/-- Settles O48: with no host step left `nextHostStep` answers the state itself. -/
theorem idleBlockStaysAsItIs : Obligations.IdleBlockStaysAsItIs := fun _ h => step_idle h

end Sys2Proof.HostProofs
end

section
/-! PROOFS. The decoder (30_encoding.md): the fields of a byte and of a command, and O6 to O10. -/

open Sys2Proof Sys2Proof.Machine

namespace Sys2Proof.DecoderProofs

theorem zeroField_eq (c : Byte) : zeroField c = c.toNat / 64 := by
  have := c.isLt
  rw [zeroField, BitVec.extractLsb'_toNat, Nat.shiftRight_eq_div_pow]
  omega

theorem selField_eq (c : Byte) : selField c = c.toNat / 16 % 4 := by
  rw [selField, BitVec.extractLsb'_toNat, Nat.shiftRight_eq_div_pow]

theorem opField_eq (c : Byte) : opField c = c.toNat % 16 := by
  rw [opField, BitVec.extractLsb'_toNat, Nat.shiftRight_zero]

/-- The three fields of R61 make up the byte. -/
theorem byte_eq_of_fields {c d : Byte} (hzero : zeroField c = zeroField d) (hsel : selField c = selField d)
    (hop : opField c = opField d) : c = d := by
  rw [zeroField_eq, zeroField_eq] at hzero
  rw [selField_eq, selField_eq] at hsel
  rw [opField_eq, opField_eq] at hop
  exact BitVec.eq_of_toNat_eq (by omega)

/-- Each command by its own line of the table. -/
theorem decode_encode (i : Instr) : decode (encode i) = .instr i := by
  cases i <;> rfl

/-- The fields of every command are a legal pair (R64). -/
theorem legalFields_of_instr (i : Instr) : legalFields 0 i.sel i.op = true := by
  cases i <;> rfl

theorem decodeSel0_fields {op : Nat} {i : Instr} (h : decodeSel0 op = .instr i) : i.sel = 0 ∧ i.op = op := by
  unfold decodeSel0 at h
  split at h <;> cases h <;> exact ⟨rfl, rfl⟩

theorem decodeSel1_fields {op : Nat} {i : Instr} (h : decodeSel1 op = .instr i) : i.sel = 1 ∧ i.op = op := by
  unfold decodeSel1 at h
  split at h <;> cases h <;> exact ⟨rfl, rfl⟩

theorem decodeSel2_fields {op : Nat} {i : Instr} (h : decodeSel2 op = .instr i) : i.sel = 2 ∧ i.op = op := by
  unfold decodeSel2 at h
  split at h <;> cases h <;> exact ⟨rfl, rfl⟩

/-- A byte that decodes has the fields of its command. -/
theorem fields_of_decode {c : Byte} {i : Instr} (h : decode c = .instr i) :
    zeroField c = 0 ∧ selField c = i.sel ∧ opField c = i.op := by
  unfold decode at h
  split at h
  · cases h
  · next hzero =>
    refine ⟨not_not.mp hzero, ?_⟩
    split at h
    · next hsel => rw [hsel, (decodeSel0_fields h).1, (decodeSel0_fields h).2]; exact ⟨rfl, rfl⟩
    · next hsel => rw [hsel, (decodeSel1_fields h).1, (decodeSel1_fields h).2]; exact ⟨rfl, rfl⟩
    · next hsel => rw [hsel, (decodeSel2_fields h).1, (decodeSel2_fields h).2]; exact ⟨rfl, rfl⟩
    · cases h

theorem decodeSel0_legal {op : Nat} (hlow : 2 ≤ op) (hhigh : op ≤ 9) : ∃ i, decodeSel0 op = .instr i := by
  interval_cases op <;> exact ⟨_, rfl⟩

theorem decodeSel1_legal {op : Nat} (hlow : 2 ≤ op) (hhigh : op < 16) : ∃ i, decodeSel1 op = .instr i := by
  interval_cases op <;> exact ⟨_, rfl⟩

theorem decodeSel2_legal {op : Nat} (hhigh : op < 16) : ∃ i, decodeSel2 op = .instr i := by
  interval_cases op <;> exact ⟨_, rfl⟩

theorem legalFields_iff (top sel op : Nat) :
    legalFields top sel op = true ↔ top = 0 ∧ (sel = 2 ∨ (sel = 1 ∧ 2 ≤ op) ∨ (sel = 0 ∧ 2 ≤ op ∧ op ≤ 9)) := by
  simp [legalFields, or_assoc, and_assoc]

theorem opField_lt (c : Byte) : opField c < 16 := opField_eq c ▸ Nat.mod_lt _ (by decide)

/-- The decoder accepts a byte exactly when its fields are legal: a byte that decodes has its command's fields, and
each legal pair is a line of one of the three tables (R64). -/
theorem decode_instr_iff (c : Byte) :
    (∃ i, decode c = .instr i) ↔ legalFields (zeroField c) (selField c) (opField c) = true := by
  constructor
  · rintro ⟨i, hi⟩
    obtain ⟨hzero, hsel, hop⟩ := fields_of_decode hi
    rw [hzero, hsel, hop]
    exact legalFields_of_instr i
  · intro h
    obtain ⟨hzero, hsel | ⟨hsel, hlow⟩ | ⟨hsel, hlow, hhigh⟩⟩ := (legalFields_iff _ _ _).mp h <;>
      rw [decode, if_neg (not_not.mpr hzero), hsel]
    · exact decodeSel2_legal (opField_lt c)
    · exact decodeSel1_legal hlow (opField_lt c)
    · exact decodeSel0_legal hlow hhigh

/-- The same on the byte's value, as R64 is stated. -/
theorem decode_instr_iff_toNat (c : Byte) :
    (∃ i, decode c = .instr i) ↔ legalFields (c.toNat / 64) (c.toNat / 16 % 4) (c.toNat % 16) = true := by
  rw [decode_instr_iff, zeroField_eq, selField_eq, opField_eq]

theorem hostCommand_of_not_instr {c : Byte} (h : ¬ ∃ i, decode c = .instr i) (s : State) :
    hostCommand c s = .next (raise .illegalCommand { s with cmd := c }) := by
  rw [hostCommand]
  cases hdecode : decode c with
  | instr i => exact absurd ⟨i, hdecode⟩ h
  | illegal why => rfl

/-- Settles O6: such a byte decodes to no command (`decode_instr_iff_toNat`), and the block raises on the spot. -/
theorem illegalByteRaisesIllegalCommand : Obligations.IllegalByteRaisesIllegalCommand := by
  intro s c rest h hillegal
  have hnone : ¬ ∃ i, decode c = .instr i := by
    rw [decode_instr_iff_toNat, hillegal]
    exact Bool.false_ne_true
  exact (step_eq s _ rest h).trans (hostCommand_of_not_instr hnone _)

/-- Settles O7: the fields of the table's lines are exactly the legal ones (`decode_instr_iff_toNat`); the count is a
finite computation. -/
theorem decoderAcceptsExactlyTheLegalWords : Obligations.DecoderAcceptsExactlyTheLegalWords :=
  ⟨decode_instr_iff_toNat, by decide +kernel⟩

/-- Settles O8: it holds of all 38 commands, and all are well formed. -/
theorem decodeOfEncodeIsTheCommand : Obligations.DecodeOfEncodeIsTheCommand := fun i _ => decode_encode i

/-- Settles O9: the byte and the command's word have the same three fields, and the fields make up the byte. -/
theorem encodeOfDecodeIsTheWord : Obligations.EncodeOfDecodeIsTheWord := by
  intro c i h
  obtain ⟨hzero, hsel, hop⟩ := fields_of_decode h
  obtain ⟨hzero', hsel', hop'⟩ := fields_of_decode (decode_encode i)
  exact byte_eq_of_fields (hzero'.trans hzero.symm) (hsel'.trans hsel.symm) (hop'.trans hop.symm)

/-- Settles O10: nineteen bytes, each decoded by evaluation. -/
theorem writtenOutWordsDecode : Obligations.WrittenOutWordsDecode := by
  unfold Obligations.WrittenOutWordsDecode
  decide

end Sys2Proof.DecoderProofs
end

section
/-! PROOFS. The divider (41_integer.md sections 6 and 7): `divideWord` on the signed readings, and O17 and O19. -/

open Sys2Proof Sys2Proof.Machine Sys2Proof.Claims

namespace Sys2Proof.DividerProofs

/-- Wrapped where the truncated quotient does not fit: `MIN / -1` (R95). -/
theorem sdiv_eq_word (a b : Word) : a.sdiv b = word (a.toInt.tdiv b.toInt) := by
  apply BitVec.eq_of_toInt_eq
  rw [BitVec.toInt_sdiv, word, BitVec.toInt_ofInt]

theorem srem_eq_word (a b : Word) : a.srem b = word (a.toInt.tmod b.toInt) := by
  rw [← BitVec.toInt_srem, word, BitVec.ofInt_toInt]

/-- `divideWord` is truncated division of the signed readings, made words again (R95). -/
theorem divideWord_eq_word {a b : Word} (hb : b ≠ 0#32) :
    divideWord a b = some (word (a.toInt.tdiv b.toInt), word (a.toInt.tmod b.toInt)) := by
  rw [divideWord_eq, if_neg hb, sdiv_eq_word, srem_eq_word]

theorem getS_widthBytes_toInt (s : State) (slot : Slot) (w : Width) :
    (getS s slot (widthBytes w)).toInt = signedOf (widthBytes w) (s.memRead slot.offset (widthBytes w)) :=
  getS_toInt s slot _ (IntegerProofs.widthBytes_pos w) (widthBytes_le w)

theorem getS_widthBytes_ne_zero {s : State} {slot : Slot} {w : Width} (h : s.memRead slot.offset (widthBytes w) ≠ 0) :
    getS s slot (widthBytes w) ≠ 0#32 :=
  mt (getS_eq_zero_iff s slot _ (IntegerProofs.widthBytes_pos w) (widthBytes_le w)).mp h

theorem dividesAt_of_exec {i : Instr} (w : Width) (hexec : ∀ s, exec i s = .next (divCommand w s)) :
    DividesAt i (widthBytes w) := fun s hb => by
  refine ⟨_, hexec s, ?_⟩
  rw [divCommand, divideWord_eq_word (getS_widthBytes_ne_zero hb), getS_widthBytes_toInt, getS_widthBytes_toInt]
  exact FloatProofs.delivers_put_put_eq s (widthBytes_le w) _ _ (lowBytes_word _ (widthBytes_le w) _)
    (lowBytes_word _ (widthBytes_le w) _)

/-- The remainder of a word division is the integer one, which fits (R95). -/
theorem toInt_word_tmod (a b : Word) : (word (a.toInt.tmod b.toInt)).toInt = a.toInt.tmod b.toInt := by
  rw [← srem_eq_word, BitVec.toInt_srem]

theorem tmod_neg_iff {x y : Int} (h : x.tmod y ≠ 0) : x.tmod y < 0 ↔ x < 0 := by
  rcases Int.le_total 0 x with hx | hx
  · have := Int.tmod_nonneg y hx
    omega
  · have hnonneg := Int.tmod_nonneg y (Int.neg_nonneg.mpr hx)
    rw [Int.neg_tmod] at hnonneg
    have hx0 : x ≠ 0 := by
      rintro rfl
      exact h (Int.zero_tmod y)
    omega

/-- Bit 31 is the sign of the signed reading (R6). -/
theorem getLsbD_31_eq (a : Word) : a.getLsbD 31 = decide (a.toInt < 0) := by
  rw [← BitVec.msb_eq_toInt, BitVec.msb_eq_getLsbD_last]

theorem quotient_mul_divisor_add_remainder (a b : Word) :
    a = addWord (multiplyWord (word (a.toInt.tdiv b.toInt)) b) (word (a.toInt.tmod b.toInt)) := by
  rw [addWord_eq_add, multiplyWord_eq_mul]
  calc a = word (b.toInt * a.toInt.tdiv b.toInt + a.toInt.tmod b.toInt) := by
        rw [Int.mul_tdiv_add_tmod, word, BitVec.ofInt_toInt]
    _ = word (a.toInt.tdiv b.toInt) * b + word (a.toInt.tmod b.toInt) := by
        rw [word, BitVec.ofInt_add, BitVec.ofInt_mul, BitVec.ofInt_toInt, BitVec.mul_comm]

theorem remainder_sign (a b : Word) :
    word (a.toInt.tmod b.toInt) = 0#32 ∨ (word (a.toInt.tmod b.toInt)).getLsbD 31 = a.getLsbD 31 := by
  by_cases h0 : a.toInt.tmod b.toInt = 0
  · exact .inl (by rw [h0]; rfl)
  · refine .inr ?_
    rw [getLsbD_31_eq, getLsbD_31_eq, toInt_word_tmod]
    exact decide_eq_decide.mpr (tmod_neg_iff h0)

theorem remainder_magnitude_less (a : Word) {b : Word} (hb : b ≠ 0#32) :
    compareMagnitude (magnitude (word (a.toInt.tmod b.toInt))) (magnitude b) = .less := by
  have hpos := toNat_ne_zero (magnitude_ne_zero b hb)
  rw [magnitude_toNat] at hpos
  rw [compareMagnitude_less_iff, magnitude_toNat, magnitude_toNat, toInt_word_tmod, Int.natAbs_tmod]
  exact Nat.mod_lt _ hpos

/-- Settles O17: `divideWord` is truncated division of the signed readings (`divideWord_eq_word`), sign extension at
intake keeps those readings, and delivery keeps the low `N` bits. -/
theorem divDeliversTruncatedQuotientAndRemainder : Obligations.DivDeliversTruncatedQuotientAndRemainder :=
  ⟨by decide, dividesAt_of_exec .w8 fun _ => rfl, dividesAt_of_exec .w16 fun _ => rfl,
    dividesAt_of_exec .w32 fun _ => rfl⟩

/-- Settles O19: the three facts of truncated division on the signed readings, carried over to words; the zero divisor
is the first branch of `divideWord`. -/
theorem divideWordRebuildsTheDividend : Obligations.DivideWordRebuildsTheDividend :=
  ⟨fun a b hb => ⟨_, _, divideWord_eq_word hb, quotient_mul_divisor_add_remainder a b, remainder_sign a b,
    remainder_magnitude_less a hb⟩, fun a => by rw [divideWord_eq, if_pos rfl]⟩

end Sys2Proof.DividerProofs
end

section
/-! PROOFS. The fixed-point layer (42_fixed_point.md): `FXENC`, `FXDEC` and the two compositions of them, `FXDIV`, and
O20 to O27 and O52. -/

open Sys2Proof Sys2Proof.Machine Sys2Proof.Claims

namespace Sys2Proof.FixedPointProofs

theorem memRead_of_delivers {s t : State} {results : List (Nat × Nat × Nat)} (h : Delivers s t results)
    {off n v : Nat} (hmem : (off, n, v) ∈ results) : t.memRead off n = v := by
  obtain ⟨-, hread, -, -⟩ := h
  exact hread _ hmem

/-- The low bytes of a signed reading are the bytes read (R6, R44). -/
theorem lowBytes_signedOf {n x : Nat} (h : x < 256 ^ n) : lowBytes n (signedOf n x) = x := by
  have hcast : ((256 ^ n : Nat) : Int) = 256 ^ n := by push_cast; rfl
  have hmod : signedOf n x % 256 ^ n = x := by
    rw [signedOf, ← hcast]
    split
    · exact Int.emod_eq_of_lt (by omega) (by omega)
    · rw [Int.sub_emod_right]
      exact Int.emod_eq_of_lt (by omega) (by omega)
  rw [lowBytes, hmod, Int.toNat_natCast]

/-- An integer in the range of `n` bytes is the signed reading of its low bytes (R6, R44). -/
theorem signedOf_lowBytes_of_range {n : Nat} {k : Int} (hlow : -256 ^ n ≤ 2 * k) (hhigh : 2 * k < 256 ^ n) :
    signedOf n (lowBytes n k) = k := by
  have hcast : ((256 ^ n : Nat) : Int) = 256 ^ n := by push_cast; rfl
  rw [← hcast] at hlow hhigh
  rw [signedOf, lowBytes, ← hcast]
  generalize 256 ^ n = M at hlow hhigh
  rcases Int.lt_or_le k 0 with hneg | hpos
  · have hmod : k % M = k + M := by
      rw [← Int.add_emod_right]
      exact Int.emod_eq_of_lt (by omega) (by omega)
    rw [hmod, if_neg (by omega)]
    omega
  · have hmod : k % M = k := Int.emod_eq_of_lt hpos (by omega)
    rw [hmod, if_pos (by omega)]
    omega

theorem signedOf_natAbs_le {n x : Nat} (h : x < 256 ^ n) : 2 * (signedOf n x).natAbs ≤ 256 ^ n := by
  have hcast : ((256 ^ n : Nat) : Int) = 256 ^ n := by push_cast; rfl
  rw [signedOf, ← hcast]
  split <;> omega

theorem finite64_iff (x : Nat) : finite64 x = true ↔ x / 2 ^ 52 % 2 ^ 11 ≠ 2047 := bne_iff_ne

theorem fxencCommand_of_finite (w : Width) {s : State} (h : s.memRead 16 8 / 2 ^ 52 % 2 ^ 11 ≠ 2047) :
    fxencCommand w s =
      complete (put s.v .r (widthBytes w) (toFixedPoint Config.fxRoundTie (s.memRead 16 8) (scaleFactor w))) s :=
  if_pos ((finite64_iff _).mpr h)

theorem fxencCommand_of_not_finite (w : Width) {s : State} (h : s.memRead 16 8 / 2 ^ 52 % 2 ^ 11 = 2047) :
    fxencCommand w s = raise .invalidOperand s :=
  if_neg fun hfin => (finite64_iff _).mp hfin h

/-- Scaling the exact value scales the integer that stands for it (R110). -/
theorem value64_scaled (x sf : Nat) :
    value64 x * 2 ^ sf = ((scaledValue64 x * 2 ^ sf : Int) : ℚ) / 2 ^ 1075 := by
  rw [value64_eq, div_mul_eq_mul_div, Int.cast_mul, Int.cast_pow, Int.cast_ofNat]

theorem encodesAt_of_exec {i : Instr} (w : Width) (hexec : ∀ s, exec i s = .next (fxencCommand w s)) :
    EncodesAt i (widthBytes w) (scaleFactor w) := fun s hfinite => by
  refine ⟨_, roundInt Config.fxRoundTie (scaledValue64 (s.memRead 16 8) * 2 ^ scaleFactor w) 1075, hexec s, ?_, ?_⟩
  · rw [value64_scaled]
    exact roundInt_roundsTo _ _ 1075
  · rw [fxencCommand_of_finite w hfinite]
    exact delivers_put_eq s _ _ _ (lowBytes_word _ (widthBytes_le w) _)

theorem raisesOnNonFinite_of_exec {i : Instr} (w : Width) (hexec : ∀ s, exec i s = .next (fxencCommand w s)) :
    RaisesOnNonFinite i := fun s h => by
  rw [hexec, fxencCommand_of_not_finite w h]
  rfl

theorem scaleFactor_le (w : Width) : scaleFactor w ≤ 16 := by cases w <;> decide

theorem word_natAbs_lt (a : Word) : a.toInt.natAbs < 2 ^ 32 := magnitude_toNat a ▸ (magnitude a).isLt

theorem decodesAt_of_exec {i : Instr} (w : Width) (hexec : ∀ s, exec i s = .next (fxdecCommand w s)) :
    DecodesAt i (widthBytes w) (scaleFactor w) := fun s => by
  have hfit := word_natAbs_lt (getS s .a (widthBytes w))
  obtain ⟨hfinite, hvalue⟩ := value64_encode64 _ (scaleFactor w) hfit (scaleFactor_le w)
  have hread : (getS s .a (widthBytes w)).toInt = signedOf (widthBytes w) (s.memRead 0 (widthBytes w)) :=
    DividerProofs.getS_widthBytes_toInt s .a w
  refine ⟨_, encode64 (getS s .a (widthBytes w)).toInt (scaleFactor w), hexec s, ?_, hfinite, hread ▸ hvalue, ?_⟩
  · have hdelivers := delivers_write s 24 8 (encode64 (getS s .a (widthBytes w)).toInt (scaleFactor w))
    rwa [Nat.mod_eq_of_lt (encode64_lt _ _ hfit (scaleFactor_le w))] at hdelivers
  · intro hzero
    have hword : getS s .a (widthBytes w) = 0#32 :=
      (getS_eq_zero_iff s .a _ (IntegerProofs.widthBytes_pos w) (widthBytes_le w)).mpr hzero
    rw [hword]
    rfl

/-- A scaled quotient of `2^sf` is undone by scaling with it. -/
theorem div_pow_mul_pow (k : Int) (sf : Nat) : (k : ℚ) / 2 ^ sf * 2 ^ sf = k :=
  div_mul_cancel₀ _ (pow_ne_zero _ two_ne_zero)

/-- What `FXDEC` delivers, scaled again, is the word's own integer, and rounding leaves an integer (R110, R111). -/
theorem encodeInverts_of {enc dec : Instr} {n sf : Nat} (henc : EncodesAt enc n sf) (hdec : DecodesAt dec n sf) :
    EncodeInverts enc dec n := by
  intro s t u ht hxy
  obtain ⟨t₀, y, ht₀, hdelivers, hfinite, hvalue, -⟩ := hdec s
  cases ht.symm.trans ht₀
  have hx : u.memRead 16 8 = y := hxy.trans (memRead_of_delivers hdelivers List.mem_cons_self)
  obtain ⟨t', v, ht', hround, hdelivers'⟩ := henc u (hx ▸ hfinite)
  rw [hx, hvalue, div_pow_mul_pow] at hround
  rw [roundsTo_intCast _ _ _ hround, lowBytes_signedOf (memRead_lt s 0 n)] at hdelivers'
  exact ⟨t', ht', hdelivers'⟩

/-- A rational in range scales to an integer of `n` bytes, which rounding leaves and `FXDEC` reads back (Q5). -/
theorem decodeInverts_of {enc dec : Instr} {n sf : Nat} (henc : EncodesAt enc n sf) (hdec : DecodesAt dec n sf) :
    DecodeInverts enc dec n sf := by
  intro s t u k hfinite hvalue hlow hhigh ht hword
  obtain ⟨t₀, v, ht₀, hround, hdelivers⟩ := henc s hfinite
  cases ht.symm.trans ht₀
  rw [hvalue, div_pow_mul_pow] at hround
  have hbytes : u.memRead 0 n = lowBytes n k := by
    rw [hword, memRead_of_delivers hdelivers List.mem_cons_self, roundsTo_intCast _ _ _ hround]
  obtain ⟨t', y, ht', hdelivers', hfinite', hvalue', -⟩ := hdec u
  refine ⟨t', y, ht', hdelivers', hfinite', ?_⟩
  rw [hvalue', hbytes, signedOf_lowBytes_of_range hlow hhigh, hvalue]

theorem fxdivCommand_zero_divisor (w : Width) {s : State} (h : s.memRead 4 (widthBytes w) = 0) :
    fxdivCommand w s = raise .degenerateDivisor s := by
  have hb : getS s .b (widthBytes w) = 0#32 :=
    (getS_eq_zero_iff s .b _ (IntegerProofs.widthBytes_pos w) (widthBytes_le w)).mpr h
  rw [fxdivCommand, (divideFixedPoint_eq_none_iff _ _ _).mpr hb]

theorem raisesOnZeroDivisor_of_exec {i : Instr} (w : Width) (hexec : ∀ s, exec i s = .next (fxdivCommand w s)) :
    RaisesOnZeroDivisor i (widthBytes w) .degenerateDivisor := fun s h => by
  rw [hexec, fxdivCommand_zero_divisor w h]
  rfl

theorem fxdivCommand_of_some {w : Width} {s : State} {q : Word}
    (h : divideFixedPoint (getS s .a (widthBytes w)) (getS s .b (widthBytes w)) (scaleFactor w) = some q) :
    fxdivCommand w s = complete (put s.v .r (widthBytes w) q) s := by
  rw [fxdivCommand, h]

/-- On the sound domain of R114 the command delivers the truncated scaled quotient, at each width. -/
theorem fxdivCommand_delivers (w : Width) {s : State} (hzero : s.memRead 4 (widthBytes w) ≠ 0)
    (ha : (signedOf (widthBytes w) (s.memRead 0 (widthBytes w))).natAbs < 2 ^ 31)
    (hb : (signedOf (widthBytes w) (s.memRead 4 (widthBytes w))).natAbs ≤ 2 ^ 30)
    (hq : (signedOf (widthBytes w) (s.memRead 0 (widthBytes w))).natAbs * 2 ^ scaleFactor w /
      (signedOf (widthBytes w) (s.memRead 4 (widthBytes w))).natAbs < 2 ^ 31) :
    Delivers s (fxdivCommand w s) [(8, widthBytes w, scaledQuotient (widthBytes w) (scaleFactor w)
      (s.memRead 0 (widthBytes w)) (s.memRead 4 (widthBytes w)))] := by
  have hreadA : (getS s .a (widthBytes w)).toInt = signedOf (widthBytes w) (s.memRead 0 (widthBytes w)) :=
    DividerProofs.getS_widthBytes_toInt s .a w
  have hreadB : (getS s .b (widthBytes w)).toInt = signedOf (widthBytes w) (s.memRead 4 (widthBytes w)) :=
    DividerProofs.getS_widthBytes_toInt s .b w
  have hsf := scaleFactor_le w
  rw [fxdivCommand_of_some (divideFixedPoint_sound _ _ (scaleFactor w) (by omega)
    (DividerProofs.getS_widthBytes_ne_zero hzero) (hreadA ▸ ha) (hreadB ▸ hb) (hreadA ▸ hreadB ▸ hq)), hreadA, hreadB]
  exact delivers_put_eq s _ _ _ (lowBytes_word _ (widthBytes_le w) _)

/-- Two-byte operands scaled by at most `2^8` stay inside the sound domain (Q12). -/
theorem fxdivCommand_delivers_narrow (w : Width) (hn : widthBytes w ≤ 2) (hsf : scaleFactor w ≤ 8) {s : State}
    (hzero : s.memRead 4 (widthBytes w) ≠ 0) :
    Delivers s (fxdivCommand w s) [(8, widthBytes w, scaledQuotient (widthBytes w) (scaleFactor w)
      (s.memRead 0 (widthBytes w)) (s.memRead 4 (widthBytes w)))] := by
  have hwidth : 256 ^ widthBytes w ≤ 2 ^ 16 := Nat.pow_le_pow_right (n := 256) (by decide) hn
  have ha := signedOf_natAbs_le (memRead_lt s 0 (widthBytes w))
  have hb := signedOf_natAbs_le (memRead_lt s 4 (widthBytes w))
  refine fxdivCommand_delivers w hzero (by omega) (by omega) (lt_of_le_of_lt (Nat.div_le_self _ _) ?_)
  calc (signedOf (widthBytes w) (s.memRead 0 (widthBytes w))).natAbs * 2 ^ scaleFactor w
      ≤ 2 ^ 15 * 2 ^ 8 := Nat.mul_le_mul (by omega) (Nat.pow_le_pow_right (by decide) hsf)
    _ < 2 ^ 31 := by decide

/-- A container operand is the word of the four bytes read (R43). -/
theorem getS_container (s : State) (slot : Slot) : getS s slot 4 = BitVec.ofNat 32 (s.memRead slot.offset 4) := by
  apply BitVec.eq_of_toNat_eq
  rw [← getS_toNat_mod s slot 4 (by decide) (le_refl 4), BitVec.toNat_ofNat]
  have := (getS s slot 4).isLt
  omega

/-- `-32768.0` over `1.0` (95_test_vectors.md). -/
theorem divideFixedPoint_min_by_one : divideFixedPoint 0x80000000#32 0x00010000#32 16 = some 0x00000000#32 := by
  decide +kernel

/-- `1.0` over the greatest word (95_test_vectors.md). -/
theorem divideFixedPoint_one_by_max : divideFixedPoint 0x00010000#32 0x7FFFFFFF#32 16 = some 0x7FFFFFFE#32 := by
  decide +kernel

/-- Settles O20: the exact value of `X` is an integer over `2^1075` (`value64_eq`), and `roundInt` rounds the scaled one
as R110 says (`roundInt_roundsTo`). -/
theorem fxencDeliversNearestScaledInteger : Obligations.FxencDeliversNearestScaledInteger :=
  ⟨by decide, encodesAt_of_exec .w8 fun _ => rfl, encodesAt_of_exec .w16 fun _ => rfl,
    encodesAt_of_exec .w32 fun _ => rfl⟩

/-- Settles O21: the command looks at the exponent field first. -/
theorem fxencOfNonFiniteRaisesInvalidOperand : Obligations.FxencOfNonFiniteRaisesInvalidOperand :=
  ⟨raisesOnNonFinite_of_exec .w8 fun _ => rfl, raisesOnNonFinite_of_exec .w16 fun _ => rfl,
    raisesOnNonFinite_of_exec .w32 fun _ => rfl⟩

/-- Settles O22: a word has at most 32 significant bits, so `encode64` is exact (`value64_encode64`) and fits the eight
bytes. -/
theorem fxdecDeliversExactRational : Obligations.FxdecDeliversExactRational :=
  ⟨by decide, decodesAt_of_exec .w8 fun _ => rfl, decodesAt_of_exec .w16 fun _ => rfl,
    decodesAt_of_exec .w32 fun _ => rfl⟩

/-- Settles O23, from O20 and O22 (`encodeInverts_of`). -/
theorem fxencOfFxdecIsTheWord : Obligations.FxencOfFxdecIsTheWord := by
  obtain ⟨-, henc8, henc16, henc32⟩ := fxencDeliversNearestScaledInteger
  obtain ⟨-, hdec8, hdec16, hdec32⟩ := fxdecDeliversExactRational
  exact ⟨encodeInverts_of henc8 hdec8, encodeInverts_of henc16 hdec16, encodeInverts_of henc32 hdec32⟩

/-- Settles O52, from O20 and O22 (`decodeInverts_of`). -/
theorem fxdecOfFxencIsTheRational : Obligations.FxdecOfFxencIsTheRational := by
  obtain ⟨-, henc8, henc16, henc32⟩ := fxencDeliversNearestScaledInteger
  obtain ⟨-, hdec8, hdec16, hdec32⟩ := fxdecDeliversExactRational
  exact ⟨decodeInverts_of henc8 hdec8, decodeInverts_of henc16 hdec16, decodeInverts_of henc32 hdec32⟩

/-- Settles O24: the divisor's word is zero exactly when its bytes are, and then the long divider has no value
(`divideFixedPoint_eq_none_iff`). -/
theorem fxdivByZeroRaisesDegenerateDivisor : Obligations.FxdivByZeroRaisesDegenerateDivisor :=
  ⟨raisesOnZeroDivisor_of_exec .w8 fun _ => rfl, raisesOnZeroDivisor_of_exec .w16 fun _ => rfl,
    raisesOnZeroDivisor_of_exec .w32 fun _ => rfl⟩

/-- Settles O25: at 8 and 16 bits every operand pair lies in the sound domain (`fxdivCommand_delivers_narrow`). -/
theorem fxdivNarrowDeliversTruncatedQuotient : Obligations.FxdivNarrowDeliversTruncatedQuotient :=
  ⟨fun _ hzero => ⟨_, rfl, fxdivCommand_delivers_narrow .w8 (by decide) (by decide) hzero⟩,
    fun _ hzero => ⟨_, rfl, fxdivCommand_delivers_narrow .w16 (by decide) (by decide) hzero⟩⟩

/-- Settles O26: the hypotheses are the sound domain of R114 (`fxdivCommand_delivers`). -/
theorem fxdivWideDeliversTruncatedQuotientOnSoundDomain :
    Obligations.FxdivWideDeliversTruncatedQuotientOnSoundDomain := by
  intro s ha hb1 hb hq
  have hzero : s.memRead 4 4 ≠ 0 := fun h0 => by
    rw [h0] at hb1
    exact absurd hb1 (by decide)
  exact ⟨_, rfl, fxdivCommand_delivers .w32 hzero ha hb hq⟩

/-- Settles O27: the long divider has a value for every divisor that is not zero (`divideFixedPoint_eq_none_iff`), and
the two named quotients are evaluated. -/
theorem fxdivWideReturnsForEveryDivisor : Obligations.FxdivWideReturnsForEveryDivisor := by
  refine ⟨by decide, fun s hzero => ?_⟩
  have hb : getS s .b 4 ≠ 0#32 := DividerProofs.getS_widthBytes_ne_zero (w := .w32) hzero
  obtain ⟨q, hq⟩ := Option.ne_none_iff_exists'.mp (mt (divideFixedPoint_eq_none_iff (getS s .a 4) _ 16).mp hb)
  have hqBytes : divideFixedPoint (BitVec.ofNat 32 (s.memRead 0 4)) (BitVec.ofNat 32 (s.memRead 4 4)) 16 = some q := by
    rw [getS_container, getS_container] at hq
    exact hq
  refine ⟨fxdivCommand .w32 s, q.toNat % 256 ^ 4, rfl, ?_, fun hx hy => ?_, fun hx hy => ?_⟩
  · rw [fxdivCommand_of_some (w := .w32) hq]
    exact delivers_put s .r 4 q
  · rw [hx, hy] at hqBytes
    cases hqBytes.symm.trans divideFixedPoint_min_by_one
    rfl
  · rw [hx, hy] at hqBytes
    cases hqBytes.symm.trans divideFixedPoint_one_by_max
    rfl

end Sys2Proof.FixedPointProofs
end

section
/-! PROOFS. The float unit's assembling and arithmetic (43_float.md): `FASM`, `FADD`, `FSUB`, `FMUL`, `FDIV`, and O29 to
O35. -/

open Sys2Proof Sys2Proof.Machine Sys2Proof.Claims

namespace Sys2Proof.FloatArithmeticProofs

/-- A float command of two patterns delivers `g` of the operand bytes when its word function, cut to the format, is `g`
of its arguments (R43, R44). -/
theorem deliversBinary_of_exec {i : Instr} {F : FloatFormat} {n mw : Nat} (hF : HasLayout F n mw)
    {f : FloatFormat → Word → Word → Word} {g : Nat → Nat → Nat} (hexec : ∀ s, exec i s = .next (floatCommand F f s))
    (hf : ∀ a b, (f F a b).toNat % 256 ^ n = g a.toNat b.toNat) : DeliversBinary i n g := fun s => by
  refine ⟨_, hexec s, ?_⟩
  rw [floatCommand, hF.bytes_eq]
  refine delivers_put_eq s n _ _ ?_
  rw [hf, getU_toNat s .a n hF.bytes_le, getU_toNat s .b n hF.bytes_le]
  rfl

theorem combinesAligned_add {i : Instr} {F : FloatFormat} {n mw : Nat} (hF : HasLayout F n mw)
    (hexec : ∀ s, exec i s = .next (floatCommand F floatAdd s)) : CombinesAligned i n mw fun a b => a + b :=
  deliversBinary_of_exec hF hexec (floatAdd_toNat hF)

theorem combinesAligned_sub {i : Instr} {F : FloatFormat} {n mw : Nat} (hF : HasLayout F n mw)
    (hexec : ∀ s, exec i s = .next (floatCommand F floatSubtract s)) : CombinesAligned i n mw fun a b => a - b :=
  deliversBinary_of_exec hF hexec (floatSubtract_toNat hF)

theorem multipliesFloats_of_exec {i : Instr} {F : FloatFormat} {n mw : Nat} (hF : HasLayout F n mw) {bias : Nat}
    (hbias : F.exponentBias = BitVec.ofNat 32 bias) (hexec : ∀ s, exec i s = .next (floatCommand F floatMultiply s)) :
    MultipliesFloats i n mw bias :=
  deliversBinary_of_exec hF hexec (floatMultiply_toNat hF bias hbias)

theorem dividesFloats_of_exec {i : Instr} {F : FloatFormat} {n mw : Nat} (hF : HasLayout F n mw) {bias : Nat}
    (hbias : F.exponentBias = BitVec.ofNat 32 bias) (hexec : ∀ s, exec i s = .next (fdivCommand F s)) :
    DividesFloats i n mw bias := fun s => by
  obtain ⟨q, hq, hpattern⟩ := floatDivide_toNat hF bias hbias (getU s .a n) (getU s .b n)
  refine ⟨_, hexec s, ?_⟩
  rw [fdivCommand, hF.bytes_eq, hq]
  refine delivers_put_eq s n q _ ?_
  rw [hpattern, getU_toNat s .a n hF.bytes_le, getU_toNat s .b n hF.bytes_le]
  rfl

theorem reassemblesAt_of_exec {i : Instr} {F : FloatFormat} {n mw : Nat} (hF : HasLayout F n mw)
    (hexec : ∀ s, exec i s = .next (fasmCommand F s)) : ReassemblesAt i n mw := fun s => by
  have hexponent : getS s .a 4 = word (s.memRead 0 4 : Nat) := by
    rw [FixedPointProofs.getS_container, word, BitVec.ofInt_natCast]
    rfl
  have hmantissa : (getS s .b 4).toInt = signedOf 4 (s.memRead 4 4) := getS_toInt s .b 4 (by decide) (le_refl 4)
  refine ⟨_, hexec s, ?_⟩
  rw [fasmCommand, hF.bytes_eq]
  refine delivers_put_eq s n _ _ ?_
  rw [reassemble_toNat hF _ _ _ hexponent, hmantissa]

/-- A number is its bits from `k` up, its bits from `mw` to `k`, and its bits below `mw`, ORed together. -/
theorem or_fields (x : Nat) {mw k : Nat} (h : mw ≤ k) :
    x / 2 ^ k * 2 ^ k ||| x / 2 ^ mw % 2 ^ (k - mw) * 2 ^ mw ||| x % 2 ^ mw = x := by
  have hlow : x / 2 ^ mw % 2 ^ (k - mw) * 2 ^ mw ||| x % 2 ^ mw = x % 2 ^ k := by
    rw [Nat.mul_comm, ← Nat.two_pow_add_eq_or_of_lt (Nat.mod_lt _ (Nat.two_pow_pos mw)), Nat.add_comm,
      ← Nat.mod_mul, ← Nat.pow_add, Nat.add_sub_cancel' h]
  rw [Nat.or_assoc, hlow, Nat.mul_comm, ← Nat.two_pow_add_eq_or_of_lt (Nat.mod_lt _ (Nat.two_pow_pos k)),
    Nat.div_add_mod]

theorem lowBytes_natCast {n k : Nat} (h : k < 256 ^ n) : lowBytes n (k : Int) = k := by
  rw [lowBytes, Int.emod_eq_of_lt (by omega) (by exact_mod_cast h), Int.toNat_natCast]

theorem mantissaOf_ne_zero (n mw x : Nat) : mantissaOf n mw x ≠ 0 := by
  have hpos := Nat.two_pow_pos mw
  have habs := mantissaOf_natAbs n mw x
  omega

/-- The implicit bit is the highest one of every mantissa, so a decomposed pattern needs no normalisation (R126). -/
theorem mantissaOf_log2 (n mw x : Nat) : (mantissaOf n mw x).natAbs.log2 = mw := by
  have hlow := Nat.mod_lt x (Nat.two_pow_pos mw)
  have habs := mantissaOf_natAbs n mw x
  refine (Nat.log2_eq_iff (by omega)).mpr ⟨by omega, ?_⟩
  rw [Nat.pow_succ]
  omega

/-- The sign bit of an `n`-byte pattern, in place. -/
theorem mantissaOf_sign {n : Nat} (mw : Nat) {x : Nat} (hn : 0 < n) (hx : x < 256 ^ n) :
    (if mantissaOf n mw x < 0 then 2 ^ (8 * n - 1) else 0) = x / 2 ^ (8 * n - 1) * 2 ^ (8 * n - 1) := by
  have htop : x / 2 ^ (8 * n - 1) < 2 := by
    rw [Nat.div_lt_iff_lt_mul (Nat.two_pow_pos _), ← Nat.pow_succ', Nat.succ_eq_add_one,
      Nat.sub_add_cancel (by omega), Nat.pow_mul]
    exact hx
  have hbit := mantissaOf_neg_iff n mw x
  rw [Nat.mod_eq_of_lt htop] at hbit
  split
  · next hneg => rw [hbit.mp hneg, Nat.one_mul]
  · next hneg =>
    have hzero : x / 2 ^ (8 * n - 1) = 0 :=
      (Nat.le_one_iff_eq_zero_or_eq_one.mp (Nat.le_of_lt_succ htop)).resolve_right (mt hbit.mpr hneg)
    rw [hzero, Nat.zero_mul]

/-- The exponent field of a pattern, moved to its place, stays inside the container. -/
theorem exponentOf_in_place {F : FloatFormat} {n mw : Nat} (hF : HasLayout F n mw) (x : Nat) :
    exponentOf n mw x * 2 ^ mw < 2 ^ 32 := by
  have hwidth := hF.width_lt
  have hbytes := hF.bytes_le
  calc exponentOf n mw x * 2 ^ mw < 2 ^ (8 * n - 1 - mw) * 2 ^ mw :=
        Nat.mul_lt_mul_of_pos_right (exponentOf_lt n mw x) (Nat.two_pow_pos mw)
    _ = 2 ^ (8 * n - 1) := by rw [← Nat.pow_add, Nat.sub_add_cancel (by omega)]
    _ ≤ 2 ^ 32 := Nat.pow_le_pow_right (by decide) (by omega)

/-- The pattern assembled from a pattern's own exponent and mantissa is that pattern (Q6). -/
theorem assembled_of_decomposed {F : FloatFormat} {n mw : Nat} (hF : HasLayout F n mw) {x : Nat} (hx : x < 256 ^ n) :
    assembled n mw (exponentOf n mw x) (mantissaOf n mw x) = x := by
  have hwidth := hF.width_lt
  have hfraction : (x % 2 ^ mw + 2 ^ mw) % 2 ^ mw = x % 2 ^ mw := by rw [Nat.add_mod_right, Nat.mod_mod]
  have hexponent : lowBytes 4 ((exponentOf n mw x : Int) + mw - mw) * 2 ^ mw % 2 ^ 32 =
      exponentOf n mw x * 2 ^ mw := by
    rw [Int.add_sub_cancel, lowBytes_natCast (exponentOf_lt_word hF x), Nat.mod_eq_of_lt (exponentOf_in_place hF x)]
  rw [assembled, if_neg (mantissaOf_ne_zero n mw x), mantissaOf_log2]
  dsimp only
  rw [if_pos (le_refl mw), Nat.sub_self, Nat.pow_zero, Nat.div_one, mantissaOf_natAbs, hfraction, hexponent,
    mantissaOf_sign mw hF.bytes_pos hx, exponentOf, or_fields x (by omega), Nat.mod_eq_of_lt hx]

/-- `FDEC` delivers the fields of the pattern, both fit their container words, and `FASM` puts them together again. -/
theorem reassembleInverts_of {asm dec : Instr} {F : FloatFormat} {n mw : Nat} (hF : HasLayout F n mw)
    (hasm : ReassemblesAt asm n mw) (hdec : DecomposesAt dec n mw) : ReassembleInverts asm dec n := by
  intro s t u ht hA hB
  obtain ⟨t₀, ht₀, hfields⟩ := hdec s
  cases ht.symm.trans ht₀
  obtain ⟨t', ht', hdelivers⟩ := hasm u
  have hbounds := mantissaOf_bounds n mw (s.memRead 0 n) hF.width_le
  have hexponent : u.memRead 0 4 = exponentOf n mw (s.memRead 0 n) :=
    hA.trans (FixedPointProofs.memRead_of_delivers hfields List.mem_cons_self)
  have hmantissa : signedOf 4 (u.memRead 4 4) = mantissaOf n mw (s.memRead 0 n) := by
    rw [hB, FixedPointProofs.memRead_of_delivers hfields (List.mem_cons_of_mem _ List.mem_cons_self)]
    exact FixedPointProofs.signedOf_lowBytes_of_range (by omega) (by omega)
  rw [hexponent, hmantissa, assembled_of_decomposed hF (memRead_lt s 0 n)] at hdelivers
  exact ⟨t', ht', hdelivers⟩

theorem commutes_of_deliversBinary {i : Instr} {n : Nat} {g : Nat → Nat → Nat} (h : DeliversBinary i n g)
    (hg : ∀ x y, g x y = g y x) : Commutes i n := by
  intro s u t t' hA hB ht ht'
  obtain ⟨t₀, ht₀, hdelivers⟩ := h s
  obtain ⟨t₀', ht₀', hdelivers'⟩ := h u
  cases ht.symm.trans ht₀
  cases ht'.symm.trans ht₀'
  rw [FixedPointProofs.memRead_of_delivers hdelivers List.mem_cons_self,
    FixedPointProofs.memRead_of_delivers hdelivers' List.mem_cons_self, hA, hB, hg]

/-- The larger exponent and the sum at it do not depend on the order of the operands (Q7). -/
theorem commutes_of_combinesAligned_add {i : Instr} {n mw : Nat} (h : CombinesAligned i n mw fun a b => a + b) :
    Commutes i n :=
  commutes_of_deliversBinary h fun x y => by
    dsimp only
    rw [max_comm, Int.add_comm]

/-- Two mantissas of 11 bits have a product inside the container (R133). -/
theorem f16_product_fits (x y : Nat) : signedOf 4 (lowBytes 4 (mantissaOf 2 10 x * mantissaOf 2 10 y)) =
    mantissaOf 2 10 x * mantissaOf 2 10 y := by
  have hproduct : (mantissaOf 2 10 x * mantissaOf 2 10 y).natAbs ≤ 2 ^ 11 * 2 ^ 11 := by
    rw [Int.natAbs_mul, mantissaOf_natAbs, mantissaOf_natAbs]
    exact Nat.mul_le_mul (by omega) (by omega)
  exact FixedPointProofs.signedOf_lowBytes_of_range (by omega) (by omega)

/-- Settles O29: the two normalising loops of R127 compute the pattern `assembled` describes (`reassemble_toNat`). -/
theorem fasmDeliversNormalisedPattern : Obligations.FasmDeliversNormalisedPattern :=
  ⟨by decide, reassemblesAt_of_exec f16_hasLayout fun _ => rfl, reassemblesAt_of_exec f32_hasLayout fun _ => rfl⟩

/-- Settles O30, from O28 and O29: a decomposed mantissa is normalised already (`assembled_of_decomposed`). -/
theorem fasmOfFdecIsThePattern : Obligations.FasmOfFdecIsThePattern := by
  obtain ⟨-, hasm16, hasm32⟩ := fasmDeliversNormalisedPattern
  obtain ⟨-, hdec16, hdec32⟩ := FloatProofs.fdecDeliversExponentAndSignedMantissa
  exact ⟨reassembleInverts_of f16_hasLayout hasm16 hdec16, reassembleInverts_of f32_hasLayout hasm32 hdec32⟩

/-- Settles O31: alignment floors the mantissa of the smaller exponent (`align_eq`), and the sum fits the container
(`floatAdd_toNat`). -/
theorem faddDeliversAlignedSum : Obligations.FaddDeliversAlignedSum :=
  ⟨by decide, combinesAligned_add f16_hasLayout fun _ => rfl, combinesAligned_add f32_hasLayout fun _ => rfl⟩

/-- Settles O32, from O31: the delivered sum is symmetric in the operands. -/
theorem faddIsCommutative : Obligations.FaddIsCommutative := by
  obtain ⟨-, hadd16, hadd32⟩ := faddDeliversAlignedSum
  exact ⟨commutes_of_combinesAligned_add hadd16, commutes_of_combinesAligned_add hadd32⟩

/-- Settles O33, as O31 with `floatSubtract_toNat`. -/
theorem fsubDeliversAlignedDifference : Obligations.FsubDeliversAlignedDifference :=
  ⟨by decide, combinesAligned_sub f16_hasLayout fun _ => rfl, combinesAligned_sub f32_hasLayout fun _ => rfl⟩

/-- Settles O34: the container's product shifted right is a floor (`floatMultiply_toNat`); at 16 bits the product fits
the container (`f16_product_fits`), so nothing wraps. -/
theorem fmulDeliversShiftedContainerProduct : Obligations.FmulDeliversShiftedContainerProduct :=
  ⟨by decide, multipliesFloats_of_exec f16_hasLayout rfl fun _ => rfl,
    multipliesFloats_of_exec f32_hasLayout rfl fun _ => rfl,
    deliversBinary_of_exec f16_hasLayout (fun _ => rfl) fun a b => by
      rw [floatMultiply_toNat f16_hasLayout 15 rfl, f16_product_fits]
      rfl⟩

/-- Settles O35: no mantissa is zero and the quotient stays below `2^(mw + 1)`, so the divider is in its sound domain
(`floatDivide_toNat`) and `FDIV` has no case that raises. -/
theorem fdivDeliversTruncatedQuotientAndNeverRaises : Obligations.FdivDeliversTruncatedQuotientAndNeverRaises :=
  ⟨by decide, dividesFloats_of_exec f16_hasLayout rfl fun _ => rfl, dividesFloats_of_exec f32_hasLayout rfl fun _ => rfl⟩

end Sys2Proof.FloatArithmeticProofs
end
